-- ==== Sys2Proof/Word.lean ====
section
/-! DEFINITION. The word types: a byte, the 16-bit data field, a frame of eight bytes (spec/00_scope.md R10). -/

namespace Sys2Proof

/-- A byte: 0..255, bit 7 the most significant (R10). -/
abbrev Byte := BitVec 8

/-- The 16-bit data field (R9, DATA_W; R64). -/
abbrev Half := BitVec 16

/-- A frame: exactly eight bytes, the index being the offset (R10, R60). -/
abbrev Frame := Vector Byte 8

end Sys2Proof
end

