-- ==== Sys2Proof/Config.lean ====
section
/-! DEFINITION. What an implementation fixes: the fixed parameters of spec/00_scope.md R9, and its open parameters. The open
ones have no value here: an opaque constant without a body, so nothing can lean on a value (log 2, 15). -/

namespace Sys2Proof

/-- A descriptor of a named parameter or result (R137): `code` goes to frame byte 2, both bounds inclusive. -/
structure Descriptor where
  code : Byte
  min  : Half
  max  : Half
  deriving DecidableEq, Repr, Inhabited

/-- A finite map from names to descriptors (R44, R137), as a list of entries of which the first with a name counts (log 17). -/
abbrev Table := List (String × Descriptor)

/-- The State Snapshot: 18 named boolean or small-integer fields (R144); a boolean is 0 or 1 (log 15). -/
abbrev Snapshot := Vector (String × Nat) 18

/-- What the host was configured with: the open parameters of R9 that a verb reads, and the unit address U of R135. -/
structure HostConfig where
  unit        : Byte
  cmdExec     : Byte
  cmdGetParam : Byte
  cmdSetParam : Byte
  subEnrot    : Byte
  subReset    : Byte
  subSetrot   : Byte
  subStop     : Byte
  parEcho     : Byte
  params      : Table
  results     : Table
  deriving DecidableEq, Repr

namespace Config

/-- FRAME_LEN (R9). -/
def frameLen : Nat := 8

/-- UNIT_MAX (R9). -/
def unitMax : Nat := 255

/-- STATE_CODE (R9, R144). UNVERIFIED: an unaudited literal of the source (log 22). -/
def stateCode : Byte := 0x1C

/-- CMD_ECHO (R9, R140). DEDUCED by the spec from a fixture (log 22). -/
def cmdEcho : Byte := 0xF0

/-- CMD_GET_RESULT (R9, R140). DEDUCED by the spec from a fixture (log 22). -/
def cmdGetResult : Byte := 0x3C

/-- The three bytes of SIG (R9, R125). UNVERIFIED: unaudited literals of the source (log 22). -/
def sig0 : Byte := 0x41
def sig1 : Byte := 0x57
def sig2 : Byte := 0x44

/-- The unit address of the host (R135, N13). -/
opaque unit : Byte
/-- CMD_EXEC (R9). -/
opaque cmdExec : Byte
/-- CMD_GET_PARAM (R9). -/
opaque cmdGetParam : Byte
/-- CMD_SET_PARAM (R9). -/
opaque cmdSetParam : Byte
/-- SUB_ENROT (R9). -/
opaque subEnrot : Byte
/-- SUB_RESET (R9). -/
opaque subReset : Byte
/-- SUB_SETROT (R9). -/
opaque subSetrot : Byte
/-- SUB_STOP (R9). -/
opaque subStop : Byte
/-- PAR_ECHO (R9, N9). -/
opaque parEcho : Byte
/-- The descriptor of "Address", which the source names without giving it (R137). -/
opaque addressDescriptor : Descriptor
/-- The rest of PARAMS (R9, N6). -/
opaque otherParams : Table
/-- The bounds of "Speed", of which the source gives the code only (R137). -/
opaque speedMin : Half
opaque speedMax : Half
/-- The rest of RESULTS (R9, N6). -/
opaque otherResults : Table

/-- STATE_LAYOUT (R9, R144, D26): the pure decode of response bytes 4, 5 and 6, not in the source. -/
opaque stateLayout : Byte → Byte → Byte → Snapshot

/-- TIMEOUT in seconds, none standing for "block forever" (R9, R180). No rule reads it: it acts through RXEND alone. -/
opaque timeout : Option Nat

/-- POLL_INTERVAL (R9, R113, R180). No rule reads it. -/
opaque pollInterval : Nat

/-- The host as the spec describes it: PARAMS has a key "Address", RESULTS has "Speed" with code 0x05, the rest is open (R9). -/
def host : HostConfig where
  unit        := unit
  cmdExec     := cmdExec
  cmdGetParam := cmdGetParam
  cmdSetParam := cmdSetParam
  subEnrot    := subEnrot
  subReset    := subReset
  subSetrot   := subSetrot
  subStop     := subStop
  parEcho     := parEcho
  params      := ("Address", addressDescriptor) :: otherParams
  results     := ("Speed", { code := 0x05, min := speedMin, max := speedMax }) :: otherResults

end Config

end Sys2Proof
end

