-- ==== Sys2Proof/Syntax.lean ====
section
/-! DEFINITION. The instructions, one constructor per row of spec/opcode_table.json, and what is seen at the ports when one is
issued (spec/10_state.md R31, spec/30_encoding.md R66, R72). -/

namespace Sys2Proof

/-- The operations of the block (R66), the illegal selects (R68), the verbs (R72), and the frame on the wire (R60). -/
inductive Instr where
  | build (unit cmd par : Byte) (data : Half)
  | start
  | getstat
  | getdata
  | getb (idx : BitVec 3)
  | sigcmp
  | cksum (fin : BitVec 64)
  | ckvalid (fin : BitVec 64)
  | validate (fin fin2 : BitVec 64) (count : BitVec 4)
  | illegal0
  | illegal7
  | illegalB
  | illegalC
  | illegalD
  | illegalE
  | illegalF
  | txb
  | rxb (byte : Byte)
  | rxend
  | getParam (name : String)
  | setParam (name : String) (value : Int)
  | move (speed : Int)
  | state
  | reset
  | echo
  | stop
  | enableTracking
  | result (name : String)
  | frame (bytes : List Byte)
  deriving DecidableEq, Repr

/-- The host port group as the block samples it when an operation is issued (R31, R67): every port at its width. -/
structure HostPorts where
  op    : BitVec 4
  unit  : Byte
  cmd   : Byte
  par   : Byte
  data  : Half
  idx   : BitVec 3
  fin   : BitVec 64
  fin2  : BitVec 64
  count : BitVec 4
  deriving DecidableEq, Repr

/-- The nine verbs of the Operation Layer (R72). -/
inductive Verb where
  | getParam | setParam | move | state | reset | echo | stop | enableTracking | result
  deriving DecidableEq, Repr

/-- An argument of a verb: a name, or an integer of the host (R72). -/
inductive Arg where
  | name (n : String)
  | int (v : Int)
  deriving DecidableEq, Repr

/-- A call of a verb with its arguments (R72). -/
inductive VerbCall where
  | getParam (name : String)
  | setParam (name : String) (value : Int)
  | move (speed : Int)
  | state
  | reset
  | echo
  | stop
  | enableTracking
  | result (name : String)
  deriving DecidableEq, Repr

/-- The instruction that a call of a verb is. -/
def VerbCall.instr : VerbCall → Instr
  | .getParam name => .getParam name
  | .setParam name value => .setParam name value
  | .move speed => .move speed
  | .state => .state
  | .reset => .reset
  | .echo => .echo
  | .stop => .stop
  | .enableTracking => .enableTracking
  | .result name => .result name

/-- One transfer at a port group (R31): a host operation, the AFU's own TXB, an event on the channel RX port, a verb call
`verb(args)` of the host's software (R72), or bytes on the wire (R60). -/
inductive PortEvent where
  | host (p : HostPorts)
  | tx
  | rx (rxEnd : Bool) (rxByte : Byte)
  | call (v : Verb) (args : List Arg)
  | wire (bytes : List Byte)
  deriving DecidableEq, Repr

/-- The agents (R8), and the wire of the FRAME row. -/
inductive Agent where
  | host | afu | channel | wire
  deriving DecidableEq, Repr

/-- Who issues an instruction (R66, R72). -/
def Instr.agent : Instr → Agent
  | .build _ _ _ _ | .start | .getstat | .getdata | .getb _ | .sigcmp => .host
  | .cksum _ | .ckvalid _ | .validate _ _ _ => .host
  | .illegal0 | .illegal7 | .illegalB | .illegalC | .illegalD | .illegalE | .illegalF => .host
  | .txb => .afu
  | .rxb _ | .rxend => .channel
  | .getParam _ | .setParam _ _ | .move _ | .state | .reset | .echo | .stop | .enableTracking | .result _ => .host
  | .frame _ => .wire

/-- Whose transfer a port event is. -/
def PortEvent.agent : PortEvent → Agent
  | .host _ | .call _ _ => .host
  | .tx => .afu
  | .rx _ _ => .channel
  | .wire _ => .wire

end Sys2Proof
end

