-- ==== Sys2Proof/Decode.lean ====
section
/-! DEFINITION. From what is seen at the ports to the instruction, total, rejecting by name; then the encoder; then the words of
spec/opcode_table.json (spec/30_encoding.md R60, R66 to R68, R72). -/

namespace Sys2Proof

/-- Why a port event is no instruction: bytes on the wire that are not eight (R70), or a verb without its arguments (R72). -/
inductive DecodeError where
  | frameLength (n : Nat)
  | badArguments (v : Verb)
  deriving DecidableEq, Repr

/-- The select codes of R66 and R68; the last arm is 0xF, the one left of sixteen. Ports the operation does not name are ignored,
whatever they carry (R67). -/
def decodeHost (p : HostPorts) : Instr :=
  match p.op.toNat with
  | 0 => .illegal0
  | 1 => .build p.unit p.cmd p.par p.data
  | 2 => .start
  | 3 => .getstat
  | 4 => .getdata
  | 5 => .getb p.idx
  | 6 => .sigcmp
  | 7 => .illegal7
  | 8 => .cksum p.fin
  | 9 => .ckvalid p.fin
  | 10 => .validate p.fin p.fin2 p.count
  | 11 => .illegalB
  | 12 => .illegalC
  | 13 => .illegalD
  | 14 => .illegalE
  | _ => .illegalF

/-- The channel RX port (R66): `rx_end` = 1 is RXEND, whose byte is ignored; `rx_end` = 0 is RXB. -/
def decodeRx (rxEnd : Bool) (rxByte : Byte) : Instr :=
  if rxEnd then .rxend else .rxb rxByte

/-- A verb call `verb(args)` (R72); `move` without an argument moves at its default speed 0 (R143). -/
def decodeCall (v : Verb) (args : List Arg) : Except DecodeError Instr :=
  match v, args with
  | .getParam, [.name n] => .ok (.getParam n)
  | .setParam, [.name n, .int x] => .ok (.setParam n x)
  | .move, [.int x] => .ok (.move x)
  | .move, [] => .ok (.move 0)
  | .state, [] => .ok .state
  | .reset, [] => .ok .reset
  | .echo, [] => .ok .echo
  | .stop, [] => .ok .stop
  | .enableTracking, [] => .ok .enableTracking
  | .result, [.name n] => .ok (.result n)
  | v, _ => .error (.badArguments v)

/-- Bytes on the wire are a frame when there are exactly eight (R60, R70). -/
def decodeWire (bytes : List Byte) : Except DecodeError Instr :=
  if bytes.length = Config.frameLen then .ok (.frame bytes) else .error (.frameLength bytes.length)

/-- The instruction a port event stands for. -/
def decode : PortEvent → Except DecodeError Instr
  | .host p => .ok (decodeHost p)
  | .tx => .ok .txb
  | .rx rxEnd rxByte => .ok (decodeRx rxEnd rxByte)
  | .call v args => decodeCall v args
  | .wire bytes => decodeWire bytes

/-! The encoder. -/

/-- The host ports carrying a select code and nothing else. -/
def hostPorts (op : BitVec 4) : HostPorts where
  op    := op
  unit  := 0
  cmd   := 0
  par   := 0
  data  := 0
  idx   := 0
  fin   := 0
  fin2  := 0
  count := 0

/-- The port event that issues an instruction, from the tables of R31, R66, R68 and R72. -/
def encode : Instr → PortEvent
  | .build u c p d => .host { hostPorts 0x1 with unit := u, cmd := c, par := p, data := d }
  | .start => .host (hostPorts 0x2)
  | .getstat => .host (hostPorts 0x3)
  | .getdata => .host (hostPorts 0x4)
  | .getb i => .host { hostPorts 0x5 with idx := i }
  | .sigcmp => .host (hostPorts 0x6)
  | .cksum f => .host { hostPorts 0x8 with fin := f }
  | .ckvalid f => .host { hostPorts 0x9 with fin := f }
  | .validate f g n => .host { hostPorts 0xA with fin := f, fin2 := g, count := n }
  | .illegal0 => .host (hostPorts 0x0)
  | .illegal7 => .host (hostPorts 0x7)
  | .illegalB => .host (hostPorts 0xB)
  | .illegalC => .host (hostPorts 0xC)
  | .illegalD => .host (hostPorts 0xD)
  | .illegalE => .host (hostPorts 0xE)
  | .illegalF => .host (hostPorts 0xF)
  | .txb => .tx
  | .rxb b => .rx false b
  | .rxend => .rx true 0
  | .getParam n => .call .getParam [.name n]
  | .setParam n v => .call .setParam [.name n, .int v]
  | .move v => .call .move [.int v]
  | .state => .call .state []
  | .reset => .call .reset []
  | .echo => .call .echo []
  | .stop => .call .stop []
  | .enableTracking => .call .enableTracking []
  | .result n => .call .result [.name n]
  | .frame bytes => .wire bytes

/-! The words of spec/opcode_table.json, which do not say at which port they stand: log 12 says how the port is told. -/

/-- The big-endian bytes of a number, `n` of them, the first the most significant. -/
def bytesOf : Nat → Nat → List Byte
  | 0, _ => []
  | n + 1, w => bytesOf n (w / 256) ++ [BitVec.ofNat 8 w]

/-- The number whose big-endian bytes are given. -/
def numberOf (bytes : List Byte) : Nat :=
  bytes.foldl (fun a b => a * 256 + b.toNat) 0

/-- The 44-bit word of R67 for BUILD: `oooo uuuuuuuu cccccccc pppppppp dddddddddddddddd`. -/
def buildWord (w : BitVec 44) : HostPorts :=
  { hostPorts (w.extractLsb' 40 4) with
    unit := w.extractLsb' 32 8
    cmd  := w.extractLsb' 24 8
    par  := w.extractLsb' 16 8
    data := w.extractLsb' 0 16 }

/-- The 7-bit word of R67 for GETB: `oooo iii`. -/
def getbWord (w : BitVec 7) : HostPorts :=
  { hostPorts (w.extractLsb' 3 4) with idx := w.extractLsb' 0 3 }

/-- The port event of a table word of `nbits` bits (log 12). Up to 8 bits: below 16 the 4-bit host word, every other port at
0; 0x28 to 0x2F the 7-bit GETB word; otherwise the byte of a TXB. Up to 16: the 9 bits `rx_end ++ rx_byte`. Up to 48: the
44-bit BUILD word. Otherwise the bytes of the wire, the first the most significant. -/
def tableEvent (nbits w : Nat) : PortEvent :=
  if nbits ≤ 8 then
    if w < 16 then .host (hostPorts (BitVec.ofNat 4 w))
    else if w / 8 = 5 then .host (getbWord (BitVec.ofNat 7 w))
    else if w < 256 then .tx
    else .wire []
  else if nbits ≤ 16 then
    if w < 512 then .rx (w.testBit 8) (BitVec.ofNat 8 w) else .wire (bytesOf 2 w)
  else if nbits ≤ 48 then
    if w / 2 ^ 40 = 1 then .host (buildWord (BitVec.ofNat 44 w))
    else if w < 16 then .host (hostPorts (BitVec.ofNat 4 w))
    else .wire (bytesOf 6 w)
  else .wire (bytesOf ((nbits + 7) / 8) w)

/-- The instruction the decoder reads from a table word. -/
def decodeTableWord (nbits w : Nat) : Option Instr :=
  match decode (tableEvent nbits w) with
  | .ok i => some i
  | .error _ => none

/-- The table word of an instruction, its bits in whole bytes and its number, where the table gives it one that carries all
its operands and that no other row shares: R67's words, the RX port's nine bits, a frame. -/
def tableWord : Instr → Option (Nat × Nat)
  | .build u c p d => some (48, (0x1#4 ++ u ++ c ++ p ++ d).toNat)
  | .start => some (8, 0x2)
  | .getstat => some (8, 0x3)
  | .getdata => some (8, 0x4)
  | .getb i => some (8, (0x5#4 ++ i).toNat)
  | .sigcmp => some (8, 0x6)
  | .cksum _ => none
  | .ckvalid _ => none
  | .validate _ _ _ => none
  | .illegal0 => some (8, 0x0)
  | .illegal7 => some (8, 0x7)
  | .illegalB => some (8, 0xB)
  | .illegalC => some (8, 0xC)
  | .illegalD => some (8, 0xD)
  | .illegalE => some (8, 0xE)
  | .illegalF => some (8, 0xF)
  | .txb => none
  | .rxb b => some (16, (0#1 ++ b).toNat)
  | .rxend => some (16, (1#1 ++ 0#8).toNat)
  | .getParam _ => none
  | .setParam _ _ => none
  | .move _ => none
  | .state => none
  | .reset => none
  | .echo => none
  | .stop => none
  | .enableTracking => none
  | .result _ => none
  | .frame bytes => some (64, numberOf bytes)

end Sys2Proof
end

