-- ==== Sys2Proof/Machine/State.lean ====
section
/-! DEFINITION. The state: the seven registers of the block (spec/10_state.md R20), its output ports (R31), the channel's
buffers (R30 (b)), the host, and the inputs to come; why a step may stop; the state after reset (R34). -/

namespace Sys2Proof.Machine

/-- The phase `PH` (R25). -/
inductive Phase where
  | idle | loaded | tx | rx | done
  deriving DecidableEq, Repr

/-- The result code `RES` (R26). -/
inductive Res where
  | none | ok | incomplete | checksum | deverr
  deriving DecidableEq, Repr

/-- The block's architectural state: exactly seven pieces, 150 bits (R20). -/
structure Afu where
  /-- the transmit frame buffer (R21) -/
  txf : Frame
  /-- the receive frame buffer (R23) -/
  rxf : Frame
  /-- the transmit index (R22) -/
  txi : BitVec 4
  /-- the receive count (R24) -/
  rxn : BitVec 4
  /-- the phase (R25) -/
  ph : Phase
  /-- the result code (R26) -/
  res : Res
  /-- the device error code (R27) -/
  err : Byte
  deriving DecidableEq, Repr

/-- The output ports (R31), as the latest step left them. -/
structure Ports where
  out     : BitVec 24
  refused : Bool
  txByte  : Byte
  flush   : Bool
  deriving DecidableEq, Repr

/-- A move of the channel during a collection: it delivers a byte (R110), or gives up, by timeout or stall (R111, R113). -/
inductive ChanMove where
  | byte (b : Byte)
  | close
  deriving DecidableEq, Repr

/-- The byte channel (spec/60_exceptions.md R183). -/
structure Channel where
  /-- received and not yet read, oldest first (R30 (b), R48) -/
  input : List Byte
  /-- handed to `write` since the last `clear_output`, oldest first (R40, R43; log 6) -/
  output : List Byte
  /-- what the channel will do in collections to come: the oracle of R8 as plain data, the model's own field (log 5) -/
  coming : List ChanMove
  deriving DecidableEq, Repr

/-- The five error kinds of spec/60_exceptions.md R165, with their payloads. -/
inductive VerbError where
  | unknownParameter (name : String)
  | outOfRange (name : String) (value : Int) (min max : Half)
  | incompleteAnswer
  | checksumMismatch
  | deviceError (code : Byte)
  deriving DecidableEq, Repr

/-- What a verb returns or raises (R141 to R149, R165). -/
inductive VerbResult where
  | value (v : Half)
  | snapshot (v : Snapshot)
  | flag (v : Bool)
  | done
  | raised (e : VerbError)
  deriving DecidableEq, Repr

/-- What a verb does with a validated response: GETDATA (R141, R149), GETB 4 to 6 (R144), SIGCMP (R146), or nothing. -/
inductive Reading where
  | data | flags | signature | nothing
  deriving DecidableEq, Repr

/-- Where the HOST is inside a verb (R135): the request is built and START comes next; it waits until GETSTAT shows PH = DONE; it
reads the response, with the bytes it has read so far. -/
inductive CallState where
  | built (k : Reading)
  | waiting (k : Reading)
  | decoding (k : Reading) (bytes : List Byte)
  deriving DecidableEq, Repr

/-- The host: its parameters (R9, R135), where it is inside a verb, the calls whose turn comes after it, oldest first (R53, R55), and
the last verb's outcome (log 2, 4, 10). -/
structure HostSide where
  cfg     : HostConfig
  call    : Option CallState
  pending : List VerbCall
  result  : Option VerbResult
  deriving DecidableEq, Repr

/-- What comes from outside: a transfer at a port group (R31), a byte reaching the channel (R48), the reset input (R190). -/
inductive Input where
  | port (e : PortEvent)
  | arrive (b : Byte)
  | resetInput
  deriving DecidableEq, Repr

/-- The machine's state. `feed` is what comes from outside next, in its order: the model's own field (log 3). -/
structure State where
  afu   : Afu
  ports : Ports
  chan  : Channel
  host  : HostSide
  feed  : List Input
  deriving DecidableEq, Repr

/-- The reasons to fault: none, since "the block has no fault state of its own" (spec/00_scope.md R13). Nothing raises a
fault; safe. -/
inductive Fault where
  deriving DecidableEq, Repr

/-- The reasons a step is not taken. -/
inductive Refusal where
  /-- raised by `exec` for an instruction without a meaning; no arm is left so; safe -/
  | notModelled (mnemonic : String)
  /-- raised by TXB, RXB and RXEND where they are not enabled: "the step does not exist in that state" (R33); safe (log 9) -/
  | stepNotEnabled
  /-- raised by `step` for an input that is no instruction; safe (log 13) -/
  | undecodable (e : DecodeError)
  deriving DecidableEq, Repr

/-- The output ports at rest (R34). -/
def Ports.idle : Ports where
  out     := 0
  refused := false
  txByte  := 0
  flush   := false

/-- The frame of zeros, the model's value for the buffers that R34 leaves unspecified. DESIGN CHOICE, unsafe (log 1). -/
def zeroFrame : Frame := #v[0, 0, 0, 0, 0, 0, 0, 0]

/-- The registers after reset (R34, R190). -/
def Afu.reset : Afu where
  txf := zeroFrame
  rxf := zeroFrame
  txi := 0
  rxn := 0
  ph  := .idle
  res := .none
  err := 0

/-- The machine right after reset (R34, R191): nothing in the channel, no verb called, nothing coming. -/
def State.reset : State where
  afu   := Afu.reset
  ports := Ports.idle
  chan  := { input := [], output := [], coming := [] }
  host  := { cfg := Config.host, call := Option.none, pending := [], result := Option.none }
  feed  := []

end Sys2Proof.Machine
end

