-- ==== Sys2Proof/Machine/Operands.lean ====
section
/-! DEFINITION. Operand forms: the arithmetic primitives of spec/00_scope.md R11 on bytes and the data field, the `fin` and
`fin2` packing of spec/10_state.md R31, buffer reads of R12, and table lookup (spec/43_protocol_verbs.md R138, R139). -/

namespace Sys2Proof.Machine

/-- `hi8(d) = d[15:8]` (R11). -/
def hi8 (d : Half) : Byte := d.extractLsb' 8 8

/-- `lo8(d) = d[7:0]` (R11). -/
def lo8 (d : Half) : Byte := d.extractLsb' 0 8

/-- `cat16(h, l) = 256*h + l` (R11). -/
def cat16 (h l : Byte) : Half := h ++ l

/-- `add8(a, b) = (a + b) mod 256` (R11). -/
def add8 (a b : Byte) : Byte := BitVec.ofNat 8 ((a.toNat + b.toNat) % 256)

/-- `neg8(a) = (256 - a) mod 256` (R11). -/
def neg8 (a : Byte) : Byte := BitVec.ofNat 8 ((256 - a.toNat) % 256)

/-- `sum(S)`: the exact sum of the bytes (R11). -/
def byteSum : List Byte → Nat
  | [] => 0
  | b :: rest => b.toNat + byteSum rest

/-- `x & 0xFFFF = x mod 65536`, for any integer, the sign folded into the bit pattern (R11, R143). -/
def mask16 (x : Int) : Half := BitVec.ofInt 16 x

/-- A frame port: byte 0 in bits 63:56, byte 7 in bits 7:0 (R31). -/
def frameOfPort (w : BitVec 64) : Frame :=
  #v[w.extractLsb' 56 8, w.extractLsb' 48 8, w.extractLsb' 40 8, w.extractLsb' 32 8,
     w.extractLsb' 24 8, w.extractLsb' 16 8, w.extractLsb' 8 8, w.extractLsb' 0 8]

/-- `MemRead(space, off, n)`: the `n` bytes at offsets `off` .. `off+n-1`; every rule has `off + n <= 8` (R12; log 16). -/
def memRead (buf : Frame) (off n : Nat) : List Byte := (buf.toList.drop off).take n

/-- The entry of a name, compared for equality only (R138); none where the name is no key. -/
def lookup : Table → String → Option Descriptor
  | [], _ => none
  | (key, d) :: rest, name => if key = name then some d else lookup rest name

/-- The range test, both ends inclusive, on integers (R89 (e), R139). -/
def inRange (d : Descriptor) (value : Int) : Bool :=
  decide (Int.ofNat d.min.toNat ≤ value) && decide (value ≤ Int.ofNat d.max.toNat)

end Sys2Proof.Machine
end

