-- ==== Sys2Proof/Machine/Flags.lean ====
section
/-! DEFINITION. The checksum and the block's only condition flag, the result code: the functions `cksum`, `ckvalid`, `build`,
`validate`, `data16` and `sigmatch` (spec/40_checksum.md, spec/41_serializer.md, spec/42_deserializer.md), and the status view. -/

namespace Sys2Proof.Machine

/-- `cksum(S) = neg8(sum(S) mod 256)` (R80): additive, no polynomial (R2). -/
def cksum (bytes : List Byte) : Byte := neg8 (BitVec.ofNat 8 (byteSum bytes % 256))

/-- `ckvalid(F) = (sum(F) mod 256 = 0)` (R81). -/
def ckvalid (bytes : List Byte) : Bool := byteSum bytes % 256 == 0

/-- `build(unit, cmd, par, data)` (R95). -/
def build (unit cmd par : Byte) (data : Half) : Frame :=
  #v[unit, cmd, par, 0, hi8 data, lo8 data, 0, cksum [unit, cmd, par, 0, hi8 data, lo8 data, 0]]

/-- Byte 1 of a byte string that has one: the echoed command or error code (R118). -/
def echoed (bytes : List Byte) : Byte := bytes.getD 1 0

/-- `validate(Q, A)`: length, then checksum, then command echo; the first that fails decides (R114 to R118). -/
def validate (q : Frame) (a : List Byte) : Res × Byte :=
  if a.length ≠ 8 then (.incomplete, 0)
  else if ckvalid a = false then (.checksum, 0)
  else if echoed a ≠ q[1] then (.deverr, echoed a)
  else (.ok, 0)

/-- `data16(A) = cat16(A[4], A[5])` (R122). -/
def data16 (a : Frame) : Half := cat16 a[4] a[5]

/-- `sigmatch(A)`: bytes 2 to 4 are the signature (R125). -/
def sigmatch (a : Frame) : Bool :=
  a[2] == Config.sig0 && a[3] == Config.sig1 && a[4] == Config.sig2

/-- The 3-bit code of a phase (R25). -/
def Phase.code : Phase → BitVec 3
  | .idle => 0
  | .loaded => 1
  | .tx => 2
  | .rx => 3
  | .done => 4

/-- The 3-bit code of a result (R26). -/
def Res.code : Res → BitVec 3
  | .none => 0
  | .ok => 1
  | .incomplete => 2
  | .checksum => 3
  | .deverr => 4

/-- `STATUS = ERR ++ 00 ++ TXI ++ RXN ++ RES ++ PH` (R28, R121). -/
def Afu.status (a : Afu) : BitVec 24 :=
  a.err ++ 0#2 ++ a.txi ++ a.rxn ++ a.res.code ++ a.ph.code

/-- The `out` word of VALIDATE: `zext_24(e ++ 00000 ++ r)` (R120). -/
def outcomeWord (r : Res × Byte) : BitVec 24 := (r.2 ++ 0#5 ++ r.1.code).setWidth 24

/-- A flag on `out` (R83, R126). -/
def flagWord (b : Bool) : BitVec 24 := if b then 1 else 0

end Sys2Proof.Machine
end

