-- ==== Sys2Proof/Machine/Ops.lean ====
section
/-! DEFINITION. The shared operations: how an operation completes or is refused (spec/10_state.md R33), the channel's contract
(spec/60_exceptions.md R183), the register writes of each block operation, recording an outcome (R172), and the reset event. -/

namespace Sys2Proof.Machine

/-! Completing and refusing. An output port that a step does not name is 0 (log 11). -/

/-- A step that changes nothing but puts the outputs to rest. -/
def idle (s : State) : State := { s with ports := Ports.idle }

/-- `refuse`: no register changes, nothing on the channel ports, `out = 0`, `refused = 1` (R12, R33). -/
def refuse (s : State) : State := { s with ports := { Ports.idle with refused := true } }

/-- `out <- v`, and nothing else (R12). -/
def answer (v : BitVec 24) (s : State) : State := { s with ports := { Ports.idle with out := v } }

/-! The channel (R183). -/

/-- `write` of one byte: bytes go out in order (R43, R183). -/
def Channel.write (c : Channel) (b : Byte) : Channel := { c with output := c.output ++ [b] }

/-- `clear_input()` then `clear_output()` (R54, R97, R183). -/
def Channel.clear (c : Channel) : Channel := { c with input := [], output := [] }

/-- Bytes reach the input buffer (R48). -/
def Channel.receive (c : Channel) (bytes : List Byte) : Channel := { c with input := c.input ++ bytes }

/-- A byte is read: it leaves the input buffer if it is the oldest there (R51; log 7). -/
def Channel.read (c : Channel) (b : Byte) : Channel :=
  { c with input := if c.input.head? = some b then c.input.tail else c.input }

/-! The registers. -/

/-- BUILD's writes (R96). -/
def Afu.load (a : Afu) (f : Frame) : Afu :=
  { a with txf := f, txi := 0, rxn := 0, res := .none, err := 0, ph := .loaded }

/-- START's writes (R97). -/
def Afu.openExchange (a : Afu) : Afu :=
  { a with txi := 0, rxn := 0, res := .none, err := 0, ph := .tx }

/-- TXB is enabled in phase TX while `TXI < 8` (R22, R32). -/
def Afu.txEnabled (a : Afu) : Bool := a.ph == .tx && decide (a.txi.toNat < 8)

/-- RXB is enabled in phase RX while `RXN < 8` (R24, R32). -/
def Afu.rxEnabled (a : Afu) : Bool := a.ph == .rx && decide (a.rxn.toNat < 8)

/-- The byte `TXF[TXI]`; TXB reads it with `TXI < 8` (R98). -/
def Afu.txNext (a : Afu) : Byte := a.txf.toList.getD a.txi.toNat 0

/-- TXB's writes: `TXI`, and the phase on the eighth byte (R98). -/
def Afu.sent (a : Afu) : Afu :=
  { a with txi := a.txi + 1, ph := if a.txi = 7 then .rx else a.ph }

/-- RXB's writes: `RXF[RXN] <- b`, `RXN <- RXN + 1` (R110). -/
def Afu.store (a : Afu) (b : Byte) : Afu :=
  { a with rxf := a.rxf.setIfInBounds a.rxn.toNat b, rxn := a.rxn + 1 }

/-- Taking an outcome, an error or OK: `RES` and `ERR` are written and the phase is DONE, "that is all" (R172). Nothing is saved
and there is no return operation: BUILD leaves DONE (R174). -/
def Afu.conclude (a : Afu) (r : Res × Byte) : Afu := { a with res := r.1, err := r.2, ph := .done }

/-- RXEND's writes: the outcome of validating the bytes collected (R111). -/
def Afu.collected (a : Afu) : Afu :=
  a.conclude (validate a.txf (memRead a.rxf 0 a.rxn.toNat))

/-- GETDATA, GETB and SIGCMP are enabled in DONE with `RES` = OK (R32). -/
def Afu.readable (a : Afu) : Bool := a.ph == .done && a.res == .ok

/-! The reset event. -/

/-- The reset input: every register at its reset value, the outputs at 0, the channel untouched (R34, R190). The host gives up
a verb that was waiting (log 14). -/
def resetStep (s : State) : State :=
  { s with afu := Afu.reset, ports := Ports.idle, host := { s.host with call := none } }

/-- Bytes reach the channel's input buffer; the block does not act (R48). -/
def arriveStep (bytes : List Byte) (s : State) : State :=
  { s with chan := s.chan.receive bytes, ports := Ports.idle }

end Sys2Proof.Machine
end

