-- ==== Sys2Proof/Machine/Checksum.lean ====
section
/-! DEFINITION. CKSUM and CKVALID (spec/40_checksum.md R82, R83): enabled in every phase, no state written. -/

namespace Sys2Proof.Machine

/-- CKSUM (R82): the checksum of `fin` bytes 0 to 6; bits 7:0 of `fin` are ignored. DESIGN CHOICE, unsafe (log 26): the port table of
R31 says "low 56 bits used", which R82, the opcode table's CKSUM row, program P7 and R31's own packing contradict. -/
def execCksum (fin : BitVec 64) (s : State) : Host.Outcome State Fault Refusal :=
  .next (answer ((cksum (memRead (frameOfPort fin) 0 7)).setWidth 24) s)

/-- CKVALID (R83): 1 when the eight bytes of `fin` satisfy the invariant, else 0. -/
def execCkvalid (fin : BitVec 64) (s : State) : Host.Outcome State Fault Refusal :=
  .next (answer (flagWord (ckvalid (memRead (frameOfPort fin) 0 8))) s)

end Sys2Proof.Machine
end

