-- ==== Sys2Proof/Machine/Deserializer.lean ====
section
/-! DEFINITION. RXB, RXEND, VALIDATE, GETSTAT, GETDATA, GETB and SIGCMP (spec/42_deserializer.md). -/

namespace Sys2Proof.Machine

/-- RXB where it is enabled: the channel hands over `b`, which is stored (R110). -/
def rxbStep (b : Byte) (s : State) : State :=
  { s with afu := s.afu.store b, chan := s.chan.read b, ports := Ports.idle }

/-- RXEND where it is enabled: the collection is closed and validated (R111). -/
def rxendStep (s : State) : State := { s with afu := s.afu.collected, ports := Ports.idle }

/-- GETSTAT (R121). -/
def getstatStep (s : State) : State := answer s.afu.status s

/-- A read of a validated response: refused unless DONE with `RES` = OK (R123, R124, R126). -/
def readStep (v : BitVec 24) (s : State) : State := if s.afu.readable then answer v s else refuse s

/-- GETDATA (R123). -/
def getdataStep (s : State) : State := readStep ((data16 s.afu.rxf).setWidth 24) s

/-- GETB (R124). -/
def getbStep (idx : BitVec 3) (s : State) : State :=
  readStep ((s.afu.rxf[idx.toNat]'(by have := idx.isLt; omega)).setWidth 24) s

/-- SIGCMP (R126). -/
def sigcmpStep (s : State) : State := readStep (flagWord (sigmatch s.afu.rxf)) s

/-- The response operand of VALIDATE: the first `n` bytes of `fin2`; a count of 9 to 15 is "not 8" (R120, U7). -/
def validateOperands (fin fin2 : BitVec 64) (count : BitVec 4) : Res × Byte :=
  if 8 < count.toNat then (.incomplete, 0)
  else validate (frameOfPort fin) (memRead (frameOfPort fin2) 0 count.toNat)

/-- RXB (R110); where it is not enabled the step does not exist (R33). -/
def execRxb (b : Byte) (s : State) : Host.Outcome State Fault Refusal :=
  if s.afu.rxEnabled then .next (rxbStep b s) else .refused .stepNotEnabled

/-- RXEND (R111), enabled in phase RX; elsewhere the step does not exist (R33). -/
def execRxend (s : State) : Host.Outcome State Fault Refusal :=
  if s.afu.ph = .rx then .next (rxendStep s) else .refused .stepNotEnabled

/-- VALIDATE (R120): enabled in every phase, no state written. -/
def execValidate (fin fin2 : BitVec 64) (count : BitVec 4) (s : State) : Host.Outcome State Fault Refusal :=
  .next (answer (outcomeWord (validateOperands fin fin2 count)) s)

/-- GETSTAT (R121). -/
def execGetstat (s : State) : Host.Outcome State Fault Refusal := .next (getstatStep s)

/-- GETDATA (R123). -/
def execGetdata (s : State) : Host.Outcome State Fault Refusal := .next (getdataStep s)

/-- GETB (R124). -/
def execGetb (idx : BitVec 3) (s : State) : Host.Outcome State Fault Refusal := .next (getbStep idx s)

/-- SIGCMP (R126). -/
def execSigcmp (s : State) : Host.Outcome State Fault Refusal := .next (sigcmpStep s)

end Sys2Proof.Machine
end

