-- ==== Sys2Proof/Machine/Illegal.lean ====
section
/-! DEFINITION. The select codes that select no operation (spec/30_encoding.md R68): refused in every phase, which is a completed
step with `refused = 1` (spec/10_state.md R33). -/

namespace Sys2Proof.Machine

/-- `op = 0x0` (R68). -/
def execIllegal0 (s : State) : Host.Outcome State Fault Refusal := .next (refuse s)

/-- `op = 0x7` (R68). -/
def execIllegal7 (s : State) : Host.Outcome State Fault Refusal := .next (refuse s)

/-- `op = 0xB` (R68). -/
def execIllegalB (s : State) : Host.Outcome State Fault Refusal := .next (refuse s)

/-- `op = 0xC` (R68). -/
def execIllegalC (s : State) : Host.Outcome State Fault Refusal := .next (refuse s)

/-- `op = 0xD` (R68). -/
def execIllegalD (s : State) : Host.Outcome State Fault Refusal := .next (refuse s)

/-- `op = 0xE` (R68). -/
def execIllegalE (s : State) : Host.Outcome State Fault Refusal := .next (refuse s)

/-- `op = 0xF` (R68). -/
def execIllegalF (s : State) : Host.Outcome State Fault Refusal := .next (refuse s)

end Sys2Proof.Machine
end

