-- ==== Sys2Proof/Machine/Serializer.lean ====
section
/-! DEFINITION. BUILD, START and TXB (spec/41_serializer.md R96 to R98). -/

namespace Sys2Proof.Machine

/-- BUILD: refused in TX and RX; otherwise the request is loaded, with nothing on the channel (R96). -/
def buildStep (unit cmd par : Byte) (data : Half) (s : State) : State :=
  if s.afu.ph = .tx ∨ s.afu.ph = .rx then refuse s
  else { s with afu := s.afu.load (build unit cmd par data), ports := Ports.idle }

/-- START: refused outside LOADED; otherwise the channel is flushed and the exchange opened (R97). -/
def startStep (s : State) : State :=
  if s.afu.ph = .loaded then
    { s with afu := s.afu.openExchange, chan := s.chan.clear, ports := { Ports.idle with flush := true } }
  else refuse s

/-- TXB where it is enabled: `emit(TXF[TXI])` (R98). -/
def txbStep (s : State) : State :=
  { s with
    afu := s.afu.sent
    chan := s.chan.write s.afu.txNext
    ports := { Ports.idle with txByte := s.afu.txNext } }

/-- BUILD (R96). -/
def execBuild (unit cmd par : Byte) (data : Half) (s : State) : Host.Outcome State Fault Refusal :=
  .next (buildStep unit cmd par data s)

/-- START (R97). -/
def execStart (s : State) : Host.Outcome State Fault Refusal := .next (startStep s)

/-- TXB (R98); where it is not enabled the step does not exist (R33). -/
def execTxb (s : State) : Host.Outcome State Fault Refusal :=
  if s.afu.txEnabled then .next (txbStep s) else .refused .stepNotEnabled

end Sys2Proof.Machine
end

