-- ==== Sys2Proof/Machine/Agents.lean ====
section
/-! DEFINITION. What the block and the channel do when left to themselves (spec/00_scope.md R8, spec/10_state.md R32). -/

namespace Sys2Proof.Machine

/-- The channel's choice while the collection is open (R112): a held byte is delivered first (R48), then what `coming` says. -/
def channelMove (s : State) : Option State :=
  match s.chan.input, s.chan.coming with
  | b :: _, _ => some (rxbStep b s)
  | [], .byte b :: rest => some (rxbStep b { s with chan := { s.chan with coming := rest } })
  | [], .close :: rest => some (rxendStep { s with chan := { s.chan with coming := rest } })
  | [], [] => none

/-- The next move of the AFU or the CHANNEL, if one is enabled (R32): TXB in TX; in RX the forced RXEND when eight bytes are
there (R111), else the channel's choice, which may be never to move (R202). -/
def ownMove (s : State) : Option State :=
  if s.afu.txEnabled then some (txbStep s)
  else if s.afu.rxEnabled then channelMove s
  else if s.afu.ph = .rx then some (rxendStep s)
  else none

end Sys2Proof.Machine
end

