-- ==== Sys2Proof/Machine/Verbs.lean ====
section
/-! DEFINITION. The nine verbs of the host (spec/43_protocol_verbs.md R135 to R150). A verb is synchronous, one operation of the
block after the other, each a step of its own (R7, R50, R53; log 4): the call is its BUILD, or the error it raises before any
operation; START, the looks at STATUS and the reads of the decode are the HOST's own turns; the bytes between them are moves of the
AFU and the CHANNEL. Where the channel never ends the exchange the verb waits (R202), and a further call waits its turn (log 10). -/

namespace Sys2Proof.Machine

/-- The verb's return to its caller. -/
def giveBack (r : VerbResult) (s : State) : State :=
  { s with host := { s.host with call := none, result := some r } }

/-- A verb raises an error (R165). -/
def raise (e : VerbError) (s : State) : State := giveBack (.raised e) s

/-- The HOST stays inside the verb, which has no result yet. -/
def goOn (c : CallState) (s : State) : State :=
  { s with host := { s.host with call := some c, result := none } }

/-- The low byte of `out`, where GETB returns its byte (R124). -/
def outByte (s : State) : Byte := s.ports.out.setWidth 8

/-- `XCHG(cmd, par, data)` begins with BUILD (R135). Whether it was refused the template does not ask (log 25). -/
def xchg (k : Reading) (cmd par : Byte) (data : Half) (s : State) : State :=
  goOn (.built k) (buildStep s.host.cfg.unit cmd par data s)

/-- One look of the waiting host: GETSTAT; at PH = DONE it goes on to the decode or raises as `RES` says, else it waits on (R135).
`RES` is never NONE in DONE (R26); there the host would wait on (log 16). -/
def look (k : Reading) (s : State) : State :=
  let t := getstatStep s
  if t.afu.ph = .done then
    match t.afu.res with
    | .ok => if k = .nothing then giveBack .done t else goOn (.decoding k []) t
    | .incomplete => raise .incompleteAnswer t
    | .checksum => raise .checksumMismatch t
    | .deverr => raise (.deviceError t.afu.err) t
    | .none => goOn (.waiting k) t
  else goOn (.waiting k) t

/-- One read of the decode of a validated response: GETDATA (R141, R149), GETB 4, then 5, then 6 (R144), or SIGCMP (R146); with the
last of them the verb returns. -/
def readReply (k : Reading) (bytes : List Byte) (s : State) : State :=
  match k, bytes with
  | .data, _ =>
    let t := getdataStep s
    giveBack (.value (t.ports.out.setWidth 16)) t
  | .flags, [] =>
    let t := getbStep 4 s
    goOn (.decoding .flags [outByte t]) t
  | .flags, [b4] =>
    let t := getbStep 5 s
    goOn (.decoding .flags [b4, outByte t]) t
  | .flags, b4 :: b5 :: _ =>
    let t := getbStep 6 s
    giveBack (.snapshot (Config.stateLayout b4 b5 (outByte t))) t
  | .signature, _ =>
    let t := sigcmpStep s
    giveBack (.flag (t.ports.out == 1)) t
  | .nothing, _ => giveBack .done s

/-- The next operation of the verb the HOST is in (R135). -/
def hostOp (c : CallState) (s : State) : State :=
  match c with
  | .built k => goOn (.waiting k) (startStep s)
  | .waiting k => look k s
  | .decoding k bytes => if s.afu.readable then readReply k bytes s else idle s

/-- The verb can go on: a verb that waits needs PH = DONE, one that decodes a validated response (R135). -/
def CallState.due (c : CallState) (a : Afu) : Bool :=
  match c with
  | .built _ => true
  | .waiting _ => a.ph == .done
  | .decoding _ _ => a.readable

/-- The lookup that precedes everything else (R138): an absent name raises, with no operation of the block. -/
def withDescriptor (t : Table) (name : String) (f : Descriptor → State → State) (s : State) : State :=
  match lookup t name with
  | none => raise (.unknownParameter name) (idle s)
  | some d => f d s

/-- `get_param(name)` (R141). -/
def beginGetParam (name : String) (s : State) : State :=
  withDescriptor s.host.cfg.params name (fun d => xchg .data s.host.cfg.cmdGetParam d.code 0) s

/-- `set_param(name, value)` (R142): the range is checked after the lookup and before any I/O (R139). -/
def beginSetParam (name : String) (value : Int) (s : State) : State :=
  withDescriptor s.host.cfg.params name
    (fun d s =>
      if inRange d value then xchg .nothing s.host.cfg.cmdSetParam d.code (mask16 value) s
      else raise (.outOfRange name value d.min d.max) (idle s)) s

/-- `move(speed)` (R143): masked to 16 bits, no range check. -/
def beginMove (speed : Int) (s : State) : State :=
  xchg .nothing s.host.cfg.cmdExec s.host.cfg.subSetrot (mask16 speed) s

/-- `state()` (R144): the get-parameter command with the fixed code 0x1C, no lookup. -/
def beginState (s : State) : State := xchg .flags s.host.cfg.cmdGetParam Config.stateCode 0 s

/-- `reset()` (R145): resets the remote device, not the block. -/
def beginReset (s : State) : State := xchg .nothing s.host.cfg.cmdExec s.host.cfg.subReset 0 s

/-- `echo()` (R146). -/
def beginEcho (s : State) : State := xchg .signature Config.cmdEcho s.host.cfg.parEcho 0 s

/-- `stop()` (R147). -/
def beginStop (s : State) : State := xchg .nothing s.host.cfg.cmdExec s.host.cfg.subStop 0 s

/-- `enable_tracking()` (R148). -/
def beginEnableTracking (s : State) : State := xchg .nothing s.host.cfg.cmdExec s.host.cfg.subEnrot 0 s

/-- `result(name)` (R149): the result table and the get-result command. -/
def beginResult (name : String) (s : State) : State :=
  withDescriptor s.host.cfg.results name (fun d => xchg .data Config.cmdGetResult d.code 0) s

/-- The HOST begins a verb. -/
def beginVerb : VerbCall → State → State
  | .getParam name => beginGetParam name
  | .setParam name value => beginSetParam name value
  | .move speed => beginMove speed
  | .state => beginState
  | .reset => beginReset
  | .echo => beginEcho
  | .stop => beginStop
  | .enableTracking => beginEnableTracking
  | .result name => beginResult name

/-- A call made while the HOST is inside an earlier verb: it keeps its place until that verb has returned (R53, R55; log 10). -/
def enqueue (v : VerbCall) (s : State) : State :=
  idle { s with host := { s.host with pending := s.host.pending ++ [v] } }

/-- A verb call: the HOST begins it, or, being inside an earlier verb, begins it after that one: "one outstanding request at a time"
(R8, R53, R55; log 10). -/
def call (v : VerbCall) (s : State) : Host.Outcome State Fault Refusal :=
  .next (if s.host.call = none then beginVerb v s else enqueue v s)

/-- The HOST's own turn, if it has one, which is never while the block sends or collects: the next operation of the verb it is in,
where the verb can go on (R135), or the oldest call that waits its turn, where no verb runs (R53, R55). DESIGN CHOICE: it comes
before any further input but the reset (log 27). -/
def hostTurn (s : State) : Option State :=
  if s.afu.ph = .tx ∨ s.afu.ph = .rx then none
  else
    match s.host.call, s.host.pending with
    | some c, _ => if c.due s.afu then some (hostOp c s) else none
    | none, v :: rest => some (beginVerb v { s with host := { s.host with pending := rest } })
    | none, [] => none

/-- What happens when nothing comes from outside: the AFU or the CHANNEL moves; else the HOST goes on with its verb, which may be
one more look at STATUS; else the block waits, with no architectural effect (R186, R191; log 19). -/
def ownStep (s : State) : State :=
  match ownMove s with
  | some t => t
  | none =>
    match s.host.call with
    | some c => hostOp c s
    | none => idle s

/-- `get_param(name)` (R141). -/
def execGetParam (name : String) (s : State) : Host.Outcome State Fault Refusal := call (.getParam name) s

/-- `set_param(name, value)` (R142). -/
def execSetParam (name : String) (value : Int) (s : State) : Host.Outcome State Fault Refusal :=
  call (.setParam name value) s

/-- `move(speed)` (R143). -/
def execMove (speed : Int) (s : State) : Host.Outcome State Fault Refusal := call (.move speed) s

/-- `state()` (R144). -/
def execState (s : State) : Host.Outcome State Fault Refusal := call .state s

/-- `reset()` (R145). -/
def execReset (s : State) : Host.Outcome State Fault Refusal := call .reset s

/-- `echo()` (R146). -/
def execEcho (s : State) : Host.Outcome State Fault Refusal := call .echo s

/-- `stop()` (R147). -/
def execStop (s : State) : Host.Outcome State Fault Refusal := call .stop s

/-- `enable_tracking()` (R148). -/
def execEnableTracking (s : State) : Host.Outcome State Fault Refusal := call .enableTracking s

/-- `result(name)` (R149). -/
def execResult (name : String) (s : State) : Host.Outcome State Fault Refusal := call (.result name) s

end Sys2Proof.Machine
end

