-- ==== Sys2Proof/Machine/Wire.lean ====
section
/-! DEFINITION. FRAME: the bytes of a frame on the wire (spec/30_encoding.md R60), reaching the channel's input buffer. DEDUCED
from R43, R48 and R62, since the FRAME row is a layout and no operation of the block (log 8). -/

namespace Sys2Proof.Machine

/-- FRAME (R60): the bytes are held by the channel, offset 0 first, until RXB delivers them or START flushes them (R48). -/
def execFrame (bytes : List Byte) (s : State) : Host.Outcome State Fault Refusal := .next (arriveStep bytes s)

end Sys2Proof.Machine
end

