-- ==== Sys2Proof/Machine/Dispatch.lean ====
section
/-! DEFINITION. One arm per instruction. -/

namespace Sys2Proof.Machine

def exec (i : Instr) (s : State) : Host.Outcome State Fault Refusal :=
  match i with
  | .build unit cmd par data => Sys2Proof.Machine.execBuild unit cmd par data s
  | .start => Sys2Proof.Machine.execStart s
  | .getstat => Sys2Proof.Machine.execGetstat s
  | .getdata => Sys2Proof.Machine.execGetdata s
  | .getb idx => Sys2Proof.Machine.execGetb idx s
  | .sigcmp => Sys2Proof.Machine.execSigcmp s
  | .cksum fin => Sys2Proof.Machine.execCksum fin s
  | .ckvalid fin => Sys2Proof.Machine.execCkvalid fin s
  | .validate fin fin2 count => Sys2Proof.Machine.execValidate fin fin2 count s
  | .illegal0 => Sys2Proof.Machine.execIllegal0 s
  | .illegal7 => Sys2Proof.Machine.execIllegal7 s
  | .illegalB => Sys2Proof.Machine.execIllegalB s
  | .illegalC => Sys2Proof.Machine.execIllegalC s
  | .illegalD => Sys2Proof.Machine.execIllegalD s
  | .illegalE => Sys2Proof.Machine.execIllegalE s
  | .illegalF => Sys2Proof.Machine.execIllegalF s
  | .txb => Sys2Proof.Machine.execTxb s
  | .rxb byte => Sys2Proof.Machine.execRxb byte s
  | .rxend => Sys2Proof.Machine.execRxend s
  | .getParam name => Sys2Proof.Machine.execGetParam name s
  | .setParam name value => Sys2Proof.Machine.execSetParam name value s
  | .move speed => Sys2Proof.Machine.execMove speed s
  | .state => Sys2Proof.Machine.execState s
  | .reset => Sys2Proof.Machine.execReset s
  | .echo => Sys2Proof.Machine.execEcho s
  | .stop => Sys2Proof.Machine.execStop s
  | .enableTracking => Sys2Proof.Machine.execEnableTracking s
  | .result name => Sys2Proof.Machine.execResult name s
  | .frame bytes => Sys2Proof.Machine.execFrame bytes s

end Sys2Proof.Machine
end

