-- ==== Sys2Proof/Machine/Step.lean ====
section
/-! DEFINITION. One step of the machine: the host's own turn, or what comes from outside next, or, when nothing comes, the agents'
own move. -/

namespace Sys2Proof.Machine

/-- The inputs in `feed` come in their order; with none, the agents move on their own (log 3, 19). -/
def takeInput (s : State) : Host.Outcome State Fault Refusal :=
  match s.feed with
  | .port e :: rest =>
    match decode e with
    | .ok i => exec i { s with feed := rest }
    | .error err => .refused (.undecodable err)
  | .arrive b :: rest => .next (arriveStep [b] { s with feed := rest })
  | .resetInput :: rest => .next (resetStep { s with feed := rest })
  | [] => .next (ownStep s)

/-- One step: the host's own turn first, so that a verb whose exchange has ended is answered, and a call whose turn has come is
begun, before any further input; the reset input alone does not wait for it (log 27). -/
def step (s : State) : Host.Outcome State Fault Refusal :=
  if s.feed.head? = some .resetInput then takeInput s
  else
    match hostTurn s with
    | some t => .next t
    | none => takeInput s

/-- The state with no verb under way and no call waiting its turn. -/
def State.freeHost (s : State) : State := { s with host := { s.host with call := none, pending := [] } }

/-- The state whose very next step runs the instruction of a table word: its port event is the next input, and the host has no
turn of its own before it (log 3, 12, 27). -/
def State.withFetchWord (s : State) (nbits w : Nat) : State :=
  let t := if (hostTurn s).isSome then s.freeHost else s
  { t with feed := .port (tableEvent nbits w) :: t.feed }

end Sys2Proof.Machine
end

