-- ==== Sys2Proof/Safety.lean ====
section
/-! DEFINITION. What claims are stated in terms of: the invariant of spec/10_state.md R35, what an observer can tell apart
(R35 (8)), sequences of instructions, and what a verb's exchange leaves. -/

namespace Sys2Proof.Machine

/-- A built frame: zero at offsets 3 and 6, and valid (spec/10_state.md R21, spec/41_serializer.md R99 (c)). -/
def BuiltFrame (f : Frame) : Prop := f[3] = 0 ∧ f[6] = 0 ∧ ckvalid f.toList = true

/-- The invariant of the block's registers, R35 (1) to (7), with R21, R26 and R206. -/
structure Afu.Inv (a : Afu) : Prop where
  /-- (1) -/
  counters : a.txi.toNat ≤ 8 ∧ a.rxn.toNat ≤ 8
  /-- (2) -/
  idle : a.ph = .idle → a.txi = 0 ∧ a.rxn = 0 ∧ a.res = .none ∧ a.err = 0
  /-- (3) -/
  loaded : a.ph = .loaded → a.txi = 0 ∧ a.rxn = 0 ∧ a.res = .none ∧ a.err = 0
  /-- (4) -/
  tx : a.ph = .tx → a.txi.toNat < 8 ∧ a.rxn = 0 ∧ a.res = .none
  /-- (5) -/
  rx : a.ph = .rx → a.txi = 8 ∧ a.res = .none ∧ a.err = 0
  /-- (6) -/
  done : a.ph = .done → a.txi = 8 ∧ a.res ≠ .none
  /-- (6), the good outcome -/
  ok : a.ph = .done → a.res = .ok → a.rxn = 8 ∧ ckvalid a.rxf.toList = true ∧ a.rxf[1] = a.txf[1]
  /-- (6), the short response -/
  incomplete : a.ph = .done → (a.res = .incomplete ↔ a.rxn.toNat < 8)
  /-- R111, R206: in DONE the outcome is the validation of the bytes collected -/
  validated : a.ph = .done → (a.res, a.err) = validate a.txf (memRead a.rxf 0 a.rxn.toNat)
  /-- (7) -/
  err : a.err ≠ 0 → a.res = .deverr
  /-- (3) and R21 -/
  built : a.ph ≠ .idle → BuiltFrame a.txf
  /-- R26: `RES != NONE` exactly when `PH = DONE` -/
  outcome : a.res ≠ .none ↔ a.ph = .done

/-- The invariant of the state: R35 of the block, and the outbound stream holds exactly the bytes of `TXF` emitted since START
(spec/20_memory.md R40, R43). -/
structure State.Inv (s : State) : Prop where
  afu : s.afu.Inv
  wire : s.afu.ph = .tx ∨ s.afu.ph = .rx ∨ s.afu.ph = .done →
    s.chan.output = s.afu.txf.toList.take s.afu.txi.toNat

/-- Two blocks that no operation can tell apart: all registers agree but `TXF` in phase IDLE and `RXF` at or above `RXN`, which
R35 (8) says are never read. -/
structure Afu.Agree (a b : Afu) : Prop where
  txi : a.txi = b.txi
  rxn : a.rxn = b.rxn
  ph  : a.ph = b.ph
  res : a.res = b.res
  err : a.err = b.err
  txf : a.ph ≠ .idle → a.txf = b.txf
  rxf : memRead a.rxf 0 a.rxn.toNat = memRead b.rxf 0 b.rxn.toNat

/-- Two states that differ in unread buffer bytes alone. -/
structure State.Agree (s t : State) : Prop where
  afu   : s.afu.Agree t.afu
  ports : s.ports = t.ports
  chan  : s.chan = t.chan
  host  : s.host = t.host
  feed  : s.feed = t.feed

/-- Two outcomes of one kind, with related states or the same reason. -/
def sameOutcome (R : State → State → Prop) :
    Host.Outcome State Fault Refusal → Host.Outcome State Fault Refusal → Prop
  | .next s, .next t => R s t
  | .fault a, .fault b => a = b
  | .refused a, .refused b => a = b
  | _, _ => False

/-- The instructions of a list, one after the other, up to the first that does not complete. -/
def execAll : List Instr → State → Host.Outcome State Fault Refusal
  | [], s => .next s
  | i :: rest, s =>
    match exec i s with
    | .next t => execAll rest t
    | .fault r => .fault r
    | .refused r => .refused r

/-- The machine after `n` steps. -/
abbrev steps (n : Nat) (s : State) : Host.Outcome State Fault Refusal := Host.Core.run Sys2Proof.core n s

/-- Where a host inside a verb can find the block (spec/43_protocol_verbs.md R135): a request was built; the exchange is under way
or done; a validated response is read, and the bytes read so far are the response's own. -/
def CallState.Inv (c : CallState) (a : Afu) : Prop :=
  match c with
  | .built _ => a.ph ≠ .idle
  | .waiting _ => a.ph = .tx ∨ a.ph = .rx ∨ a.ph = .done
  | .decoding k bytes =>
    a.ph = .done ∧ a.res = .ok ∧ k ≠ .nothing ∧ bytes = memRead a.rxf 4 bytes.length ∧ bytes.length ≤ 2 ∧
      (bytes ≠ [] → k = .flags)

/-- A host inside a verb finds the block where the verb left it. -/
def State.HostInv (s : State) : Prop := ∀ c, s.host.call = some c → c.Inv s.afu

/-- The channel's plan for the coming collection: it delivers the bytes `a` and then, if fewer than eight, gives up; `rest` is
left for later collections (R111, R112). -/
def Delivers (coming : List ChanMove) (a : List Byte) (rest : List ChanMove) : Prop :=
  (a.length = 8 ∧ coming = a.map ChanMove.byte ++ rest) ∨
  (a.length < 8 ∧ coming = a.map ChanMove.byte ++ ChanMove.close :: rest)

/-- What an exchange of the request `q` leaves when the response is `a` (R100): the block in DONE with the response and its
validated outcome, the eight request bytes on the wire, everything outside the exchange as before. -/
structure Exchanged (s t : State) (q : Frame) (a : List Byte) (rest : List ChanMove) : Prop where
  txf     : t.afu.txf = q
  txi     : t.afu.txi = 8
  rxn     : t.afu.rxn.toNat = a.length
  rxf     : memRead t.afu.rxf 0 a.length = a
  ph      : t.afu.ph = .done
  outcome : (t.afu.res, t.afu.err) = validate q a
  chan    : t.chan = { input := [], output := q.toList, coming := rest }
  cfg     : t.host.cfg = s.host.cfg
  feed    : t.feed = s.feed

/-- What a verb gives its caller for the response `a` to its request `q`: the decode after a good validation, the error kind
otherwise (R135, R141, R144, R146). -/
def replyResult (k : Reading) (q : Frame) (a : List Byte) : VerbResult :=
  match validate q a with
  | (.ok, _) =>
    match k with
    | .data => .value (cat16 (a.getD 4 0) (a.getD 5 0))
    | .flags => .snapshot (Config.stateLayout (a.getD 4 0) (a.getD 5 0) (a.getD 6 0))
    | .signature => .flag (a.getD 2 0 == Config.sig0 && a.getD 3 0 == Config.sig1 && a.getD 4 0 == Config.sig2)
    | .nothing => .done
  | (.incomplete, _) => .raised .incompleteAnswer
  | (.checksum, _) => .raised .checksumMismatch
  | (.deverr, code) => .raised (.deviceError code)
  | (.none, _) => .done

/-- A verb of the host (R72): the instructions that run operations of the block on their own account. -/
def isVerb : Instr → Bool
  | .getParam _ | .setParam _ _ | .move _ | .state | .reset | .echo | .stop | .enableTracking | .result _ => true
  | .build _ _ _ _ | .start | .getstat | .getdata | .getb _ | .sigcmp => false
  | .cksum _ | .ckvalid _ | .validate _ _ _ => false
  | .illegal0 | .illegal7 | .illegalB | .illegalC | .illegalD | .illegalE | .illegalF => false
  | .txb | .rxb _ | .rxend | .frame _ => false

end Sys2Proof.Machine
end

