-- ==== Sys2Proof/WellFormed.lean ====
section
/-! DEFINITION. Which instruction terms are instructions. Every operand but a frame's bytes has the width of its port (spec/10_state.md
R31, spec/41_serializer.md R99 (d)), so its type alone bounds it. -/

namespace Sys2Proof

/-- A frame has exactly eight bytes (spec/30_encoding.md R60, R70). Nothing else is refused: BUILD and the verbs take any
operand values (R61, R69), and a name absent from a table is the verb's own error (R138). -/
def Instr.wellFormed : Instr → Bool
  | .build _ _ _ _ | .start | .getstat | .getdata | .getb _ | .sigcmp => true
  | .cksum _ | .ckvalid _ | .validate _ _ _ => true
  | .illegal0 | .illegal7 | .illegalB | .illegalC | .illegalD | .illegalE | .illegalF => true
  | .txb | .rxb _ | .rxend => true
  | .getParam _ | .setParam _ _ | .move _ | .state | .reset | .echo | .stop | .enableTracking | .result _ => true
  | .frame bytes => bytes.length == Config.frameLen

end Sys2Proof
end

