-- ==== Sys2Proof/Certificates/Slice0/Obligations.lean ====
section
/-! DEFINITION. The statements for the provers. Each docstring says which rule of spec/ its statement formalises, and which log
entry a clause rests on where it rests on the model's own choice. -/

open Sys2Proof Sys2Proof.Machine

/-! ## The checksum (spec/40_checksum.md) -/

/-- R80: the checksum of seven bytes, in all the equivalent forms the rule lists. -/
def Obligations.ChecksumIsNegatedByteSum : Prop :=
  ∀ bytes : List Byte, bytes.length = 7 →
    (((cksum bytes).toNat : Int) = (-(byteSum bytes : Int)) % 256) ∧
    cksum bytes = neg8 (BitVec.ofNat 8 (byteSum bytes % 256)) ∧
    (cksum bytes).toNat = (256 - byteSum bytes % 256) % 256 ∧
    (cksum bytes).toNat = (((byteSum bytes % 256) ^^^ 0xFF) + 1) % 256 ∧
    byteSum bytes ≤ 1785 ∧
    (∀ k : Byte, (byteSum bytes + k.toNat) % 256 = 0 ↔ k = cksum bytes)

/-- R84: generator and checker agree, so recomputing and comparing is the same check. -/
def Obligations.GeneratorAndCheckerAgree : Prop :=
  (∀ (bytes : List Byte) (k : Byte), bytes.length = 7 →
    (ckvalid (bytes ++ [k]) = true ↔ k = cksum bytes)) ∧
  (∀ f : Frame, ckvalid f.toList = true ↔ f[7] = cksum (f.toList.take 7))

/-- R85: truncating after every addition gives the same sum, for every prefix. -/
def Obligations.RunningSumGivesTheChecksum : Prop :=
  (∀ (bytes : List Byte) (n : Nat),
    ((bytes.take n).foldl add8 0).toNat = byteSum (bytes.take n) % 256) ∧
  (∀ bytes : List Byte, bytes.length = 7 → cksum bytes = neg8 (bytes.foldl add8 0)) ∧
  (∀ bytes : List Byte, bytes.length = 8 → (ckvalid bytes = true ↔ bytes.foldl add8 0 = 0))

/-- R86, and section 3 of spec/41_serializer.md: built frames are valid, building is injective, and its image is exactly the
valid frames with zeros at offsets 3 and 6. -/
def Obligations.BuiltFramesAreTheValidRequests : Prop :=
  (∀ (u c p : Byte) (d : Half), ckvalid (build u c p d).toList = true ∧ BuiltFrame (build u c p d)) ∧
  (∀ (u c p u' c' p' : Byte) (d d' : Half), build u c p d = build u' c' p' d' →
    u = u' ∧ c = c' ∧ p = p' ∧ d = d') ∧
  (∀ f : Frame, BuiltFrame f → f = build f[0] f[1] f[2] (cat16 f[4] f[5]))

/-- R87: what the checksum detects, (a), and what it does not, (b) to (e). -/
def Obligations.ChecksumDetectsOneByteAndHasBlindSpots : Prop :=
  (∀ (f : List Byte) (i : Nat) (b : Byte) (h : i < f.length), f.length = 8 → ckvalid f = true → b ≠ f[i] →
    ckvalid (f.set i b) = false) ∧
  (∀ f g : List Byte, f.Perm g → ckvalid f = ckvalid g) ∧
  (∀ f g : List Byte, f.length = 8 → g.length = 8 →
    (List.zipWith (fun a b : Byte => (b.toNat : Int) - (a.toNat : Int)) f g).sum % 256 = 0 →
    ckvalid f = true → ckvalid g = true) ∧
  (∀ (f : List Byte) (i j : Nat) (hi : i < f.length) (hj : j < f.length), i ≠ j →
    ckvalid ((f.set i (f[i] ^^^ 0x80)).set j (f[j] ^^^ 0x80)) = ckvalid f) ∧
  ckvalid [0, 0, 0, 0, 0, 0, 0, 0] = true

/-- CKSUM (spec/40_checksum.md section 2), selected by 0x8, in every phase and every state; nothing is written. That the seven bytes
are bits 63:8 of `fin` and the low byte is ignored is the model's choice between two places of the spec (log 26). -/
def Obligations.CksumAnswersTheChecksum : Prop :=
  (∀ p : HostPorts, p.op = 0x8 → decode (.host p) = .ok (.cksum p.fin)) ∧
  ∀ (b0 b1 b2 b3 b4 b5 b6 b7 : Byte) (s : State),
    ∃ t, exec (.cksum (b0 ++ b1 ++ b2 ++ b3 ++ b4 ++ b5 ++ b6 ++ b7)) s = .next t ∧
      t.ports.out.toNat = (cksum [b0, b1, b2, b3, b4, b5, b6]).toNat ∧ t.ports.refused = false ∧
      t.afu = s.afu ∧ t.chan = s.chan ∧ t.host = s.host ∧ t.feed = s.feed

/-- R83: CKVALID, selected by 0x9, in every phase and every state; nothing is written. -/
def Obligations.CkvalidAnswersTheCheck : Prop :=
  (∀ p : HostPorts, p.op = 0x9 → decode (.host p) = .ok (.ckvalid p.fin)) ∧
  ∀ (b0 b1 b2 b3 b4 b5 b6 b7 : Byte) (s : State),
    ∃ t, exec (.ckvalid (b0 ++ b1 ++ b2 ++ b3 ++ b4 ++ b5 ++ b6 ++ b7)) s = .next t ∧
      t.ports.out.toNat = (if ckvalid [b0, b1, b2, b3, b4, b5, b6, b7] then 1 else 0) ∧ t.ports.refused = false ∧
      t.afu = s.afu ∧ t.chan = s.chan ∧ t.host = s.host ∧ t.feed = s.feed

/-! ## The serialiser (spec/41_serializer.md) -/

/-- R95, R96: BUILD, selected by 0x1. In IDLE, LOADED and DONE the eight bytes are loaded and counters, result and error are
cleared, with nothing on the channel; in TX and RX it is refused (R33). -/
def Obligations.BuildLoadsTheRequest : Prop :=
  (∀ p : HostPorts, p.op = 0x1 → decode (.host p) = .ok (.build p.unit p.cmd p.par p.data)) ∧
  ∀ (u c p : Byte) (d : Half) (s : State),
    (s.afu.ph = .idle ∨ s.afu.ph = .loaded ∨ s.afu.ph = .done →
      ∃ t, exec (.build u c p d) s = .next t ∧
        t.afu.txf.toList = [u, c, p, 0, d.extractLsb' 8 8, d.extractLsb' 0 8, 0,
          cksum [u, c, p, 0, d.extractLsb' 8 8, d.extractLsb' 0 8, 0]] ∧
        t.afu = { s.afu with txf := t.afu.txf, txi := 0, rxn := 0, res := .none, err := 0, ph := .loaded } ∧
        t.ports.refused = false ∧ t.ports.flush = false ∧
        t.chan = s.chan ∧ t.host = s.host ∧ t.feed = s.feed) ∧
    (s.afu.ph = .tx ∨ s.afu.ph = .rx →
      ∃ t, exec (.build u c p d) s = .next t ∧ t.ports.refused = true ∧ t.ports.out = 0 ∧ t.ports.flush = false ∧
        t.afu = s.afu ∧ t.chan = s.chan ∧ t.host = s.host ∧ t.feed = s.feed)

/-- R97: START, selected by 0x2. In LOADED both channel buffers are emptied and the exchange is opened; elsewhere it is
refused (R33). -/
def Obligations.StartFlushesAndOpens : Prop :=
  (∀ p : HostPorts, p.op = 0x2 → decode (.host p) = .ok .start) ∧
  ∀ s : State,
    (s.afu.ph = .loaded →
      ∃ t, exec .start s = .next t ∧
        t.afu = { s.afu with txi := 0, rxn := 0, res := .none, err := 0, ph := .tx } ∧
        t.chan.input = [] ∧ t.chan.output = [] ∧ t.chan.coming = s.chan.coming ∧
        t.ports.flush = true ∧ t.ports.refused = false ∧ t.host = s.host ∧ t.feed = s.feed) ∧
    (s.afu.ph ≠ .loaded →
      ∃ t, exec .start s = .next t ∧ t.ports.refused = true ∧ t.ports.out = 0 ∧ t.ports.flush = false ∧
        t.afu = s.afu ∧ t.chan = s.chan ∧ t.host = s.host ∧ t.feed = s.feed)

/-- TXB (spec/41_serializer.md section 2). In TX it emits `TXF[TXI]` to the channel, counts, and on the eighth byte goes to RX;
where it is not enabled the step does not exist (R33, log 9). Left alone, the machine takes it (log 19). -/
def Obligations.TxbEmitsTheNextByte : Prop :=
  ∀ s : State,
    (∀ (_ : s.afu.ph = .tx) (h : s.afu.txi.toNat < 8),
      ∃ t, exec .txb s = .next t ∧
        t.ports.txByte = s.afu.txf[s.afu.txi.toNat] ∧
        t.chan = { s.chan with output := s.chan.output ++ [s.afu.txf[s.afu.txi.toNat]] } ∧
        t.afu = { s.afu with txi := t.afu.txi, ph := if s.afu.txi.toNat = 7 then .rx else .tx } ∧
        t.afu.txi.toNat = s.afu.txi.toNat + 1 ∧
        t.ports.refused = false ∧ t.ports.flush = false ∧ t.host = s.host ∧ t.feed = s.feed) ∧
    (s.afu.ph ≠ .tx ∨ 8 ≤ s.afu.txi.toNat → exec .txb s = .refused .stepNotEnabled) ∧
    (s.afu.ph = .tx → s.afu.txi.toNat < 8 → s.feed = [] → step s = exec .txb s)

/-- R100: the exchange of a loaded request as the sequence of operations the rule names, for every response of up to eight
bytes that the channel delivers. -/
def Obligations.ExchangeCollectsAndValidates : Prop :=
  ∀ (s : State) (a : List Byte), s.afu.ph = .loaded → a.length ≤ 8 →
    ∃ t, execAll ([.start] ++ List.replicate 8 .txb ++ a.map Instr.rxb ++ [.rxend]) s = .next t ∧
      t.afu.ph = .done ∧ t.afu.txf = s.afu.txf ∧ t.afu.txi = 8 ∧ t.afu.rxn.toNat = a.length ∧
      (∀ i (h : i < a.length), t.afu.rxf.toList[i]? = some a[i]) ∧
      memRead t.afu.rxf 0 t.afu.rxn.toNat = a ∧
      (t.afu.res, t.afu.err) = validate s.afu.txf a ∧
      t.chan.output = s.afu.txf.toList ∧ t.host = s.host ∧ t.feed = s.feed

/-- Bounded progress for the fairness of TXB (spec/41_serializer.md section 2): with nothing coming at the ports, the remaining
bytes are on the wire, in order, after as many own moves, and the block collects. -/
def Obligations.TransmissionEndsWhenLeftAlone : Prop :=
  ∀ s : State, s.afu.ph = .tx → s.afu.txi.toNat < 8 → s.feed = [] →
    ∃ t, Host.Core.run Sys2Proof.core (8 - s.afu.txi.toNat) s = .next t ∧
      t.afu = { s.afu with txi := 8, ph := .rx } ∧
      t.chan = { s.chan with output := s.chan.output ++ s.afu.txf.toList.drop s.afu.txi.toNat } ∧
      t.host = s.host ∧ t.feed = []

/-! ## The deserialiser (spec/42_deserializer.md) -/

/-- RXB (spec/42_deserializer.md section 1), an event with `rx_end` = 0. In RX below eight bytes the byte is stored at `RXN`, which
counts; elsewhere the step does not exist, which the model says by a refusal (R33, log 9), and the machine left alone at eight
bytes keeps a ninth in the channel (log 19). Nothing is claimed of the channel's input buffer after an RXB, which is log 7's. -/
def Obligations.RxbStoresTheByte : Prop :=
  (∀ b : Byte, decode (.rx false b) = .ok (.rxb b)) ∧
  ∀ (b : Byte) (s : State),
    (s.afu.ph = .rx → s.afu.rxn.toNat < 8 →
      ∃ t, exec (.rxb b) s = .next t ∧
        t.afu.rxf.toList = s.afu.rxf.toList.set s.afu.rxn.toNat b ∧
        t.afu.rxn.toNat = s.afu.rxn.toNat + 1 ∧
        t.afu = { s.afu with rxf := t.afu.rxf, rxn := t.afu.rxn } ∧
        t.chan.output = s.chan.output ∧ t.chan.coming = s.chan.coming ∧
        t.ports.refused = false ∧ t.ports.flush = false ∧ t.host = s.host ∧ t.feed = s.feed) ∧
    (s.afu.ph ≠ .rx ∨ 8 ≤ s.afu.rxn.toNat → exec (.rxb b) s = .refused .stepNotEnabled) ∧
    (s.afu.ph = .rx → 8 ≤ s.afu.rxn.toNat → s.feed = [] → ∃ t, step s = .next t ∧ t.chan = s.chan)

/-- RXEND (spec/42_deserializer.md section 1), an event with `rx_end` = 1 whose byte is ignored. In RX the bytes collected are
validated and the outcome recorded; elsewhere the step does not exist, which the model says by a refusal (R33, log 9). With eight
bytes it is forced: RXB is not enabled (log 9), and the machine left alone takes it (log 19). -/
def Obligations.RxendClosesAndValidates : Prop :=
  (∀ b : Byte, decode (.rx true b) = .ok .rxend) ∧
  ∀ s : State,
    (s.afu.ph = .rx →
      ∃ t, exec .rxend s = .next t ∧
        (t.afu.res, t.afu.err) = validate s.afu.txf (s.afu.rxf.toList.take s.afu.rxn.toNat) ∧
        t.afu = { s.afu with res := t.afu.res, err := t.afu.err, ph := .done } ∧
        t.chan = s.chan ∧ t.ports.refused = false ∧ t.ports.flush = false ∧ t.host = s.host ∧ t.feed = s.feed) ∧
    (s.afu.ph ≠ .rx → exec .rxend s = .refused .stepNotEnabled) ∧
    (s.afu.ph = .rx → s.afu.rxn.toNat = 8 →
      (∀ b, exec (.rxb b) s = .refused .stepNotEnabled) ∧ (s.feed = [] → step s = exec .rxend s))

/-- R114 to R119: three checks in order, the first that fails decides, and nothing else of request or response takes part. -/
def Obligations.ValidatorMakesThreeChecksInOrder : Prop :=
  (∀ (q : Frame) (a : List Byte),
    (a.length ≠ 8 → validate q a = (.incomplete, 0)) ∧
    ∀ h : a.length = 8,
      (byteSum a % 256 ≠ 0 → validate q a = (.checksum, 0)) ∧
      (byteSum a % 256 = 0 → a[1] ≠ q[1] → validate q a = (.deverr, a[1])) ∧
      (byteSum a % 256 = 0 → a[1] = q[1] → validate q a = (.ok, 0))) ∧
  (∀ (q q' : Frame) (a a' : List Byte) (h : a.length = 8) (h' : a'.length = 8), q[1] = q'[1] → a[1] = a'[1] →
    byteSum a % 256 = byteSum a' % 256 → validate q a = validate q' a')

/-- R120: VALIDATE, selected by 0xA, in every phase and every state: the response is the first `n` bytes, a count of 9 to 15 is
"not 8", and nothing is written. -/
def Obligations.ValidateAnswersTheOutcome : Prop :=
  (∀ p : HostPorts, p.op = 0xA → decode (.host p) = .ok (.validate p.fin p.fin2 p.count)) ∧
  ∀ (q0 q1 q2 q3 q4 q5 q6 q7 r0 r1 r2 r3 r4 r5 r6 r7 : Byte) (n : BitVec 4) (s : State),
    ∃ t, exec (.validate (q0 ++ q1 ++ q2 ++ q3 ++ q4 ++ q5 ++ q6 ++ q7)
        (r0 ++ r1 ++ r2 ++ r3 ++ r4 ++ r5 ++ r6 ++ r7) n) s = .next t ∧
      (n.toNat ≤ 8 → ∀ r e,
        validate #v[q0, q1, q2, q3, q4, q5, q6, q7] ([r0, r1, r2, r3, r4, r5, r6, r7].take n.toNat) = (r, e) →
        t.ports.out.toNat = e.toNat * 256 + r.code.toNat) ∧
      (8 < n.toNat → t.ports.out.toNat = 2) ∧ t.ports.refused = false ∧
      t.afu = s.afu ∧ t.chan = s.chan ∧ t.host = s.host ∧ t.feed = s.feed

/-- R28, R121: GETSTAT, selected by 0x3, in every phase and every state: the status word, field by field; nothing is written. -/
def Obligations.GetstatAnswersStatus : Prop :=
  (∀ p : HostPorts, p.op = 0x3 → decode (.host p) = .ok .getstat) ∧
  ∀ s : State, ∃ t, exec .getstat s = .next t ∧
    t.ports.out.extractLsb' 0 3 = s.afu.ph.code ∧ t.ports.out.extractLsb' 3 3 = s.afu.res.code ∧
    t.ports.out.extractLsb' 6 4 = s.afu.rxn ∧ t.ports.out.extractLsb' 10 4 = s.afu.txi ∧
    t.ports.out.extractLsb' 14 2 = 0 ∧ t.ports.out.extractLsb' 16 8 = s.afu.err ∧
    t.ports.refused = false ∧ t.afu = s.afu ∧ t.chan = s.chan ∧ t.host = s.host ∧ t.feed = s.feed

/-- R122 to R126: GETDATA, GETB and SIGCMP, selected by 0x4, 0x5 and 0x6, answer from the response in DONE with `RES` = OK and are
refused otherwise; they write nothing. -/
def Obligations.ReadsAnswerAfterGoodValidation : Prop :=
  (∀ p : HostPorts, (p.op = 0x4 → decode (.host p) = .ok .getdata) ∧ (p.op = 0x5 → decode (.host p) = .ok (.getb p.idx)) ∧
    (p.op = 0x6 → decode (.host p) = .ok .sigcmp)) ∧
  (∀ s : State, s.afu.ph = .done → s.afu.res = .ok →
    (∃ t, exec .getdata s = .next t ∧ t.ports.out.toNat = 256 * s.afu.rxf[4].toNat + s.afu.rxf[5].toNat ∧
      t.ports.refused = false ∧ t.afu = s.afu ∧ t.chan = s.chan ∧ t.host = s.host ∧ t.feed = s.feed) ∧
    (∀ i : BitVec 3, ∃ t, exec (.getb i) s = .next t ∧ s.afu.rxf.toList[i.toNat]? = some (t.ports.out.setWidth 8) ∧
      t.ports.out.toNat < 256 ∧
      t.ports.refused = false ∧ t.afu = s.afu ∧ t.chan = s.chan ∧ t.host = s.host ∧ t.feed = s.feed) ∧
    (∃ t, exec .sigcmp s = .next t ∧
      t.ports.out.toNat = (if s.afu.rxf[2] = 0x41 ∧ s.afu.rxf[3] = 0x57 ∧ s.afu.rxf[4] = 0x44 then 1 else 0) ∧
      t.ports.refused = false ∧ t.afu = s.afu ∧ t.chan = s.chan ∧ t.host = s.host ∧ t.feed = s.feed)) ∧
  (∀ (s : State) (i : BitVec 3), s.afu.ph ≠ .done ∨ s.afu.res ≠ .ok →
    ∀ op ∈ [Instr.getdata, Instr.getb i, Instr.sigcmp],
      ∃ t, exec op s = .next t ∧ t.ports.refused = true ∧ t.ports.out = 0 ∧
        t.afu = s.afu ∧ t.chan = s.chan ∧ t.host = s.host ∧ t.feed = s.feed)

/-- R199: after an RXEND whose validation failed, GETDATA, GETB and SIGCMP are refused, with nothing of the response on `out`;
they are refused in every other state without `RES` = OK too. -/
def Obligations.NoDecodeAfterFailedValidation : Prop :=
  (∀ s t : State, exec .rxend s = .next t →
    (validate s.afu.txf (s.afu.rxf.toList.take s.afu.rxn.toNat)).1 ≠ .ok →
    ∀ (i : BitVec 3), ∀ op ∈ [Instr.getdata, Instr.getb i, Instr.sigcmp],
      ∃ u, exec op t = .next u ∧ u.ports.refused = true ∧ u.ports.out = 0 ∧ u.afu = t.afu ∧ u.chan = t.chan) ∧
  (∀ s : State, s.afu.res ≠ .ok → ∀ (i : BitVec 3), ∀ op ∈ [Instr.getdata, Instr.getb i, Instr.sigcmp],
      ∃ u, exec op s = .next u ∧ u.ports.refused = true ∧ u.ports.out = 0 ∧ u.afu = s.afu ∧ u.chan = s.chan)

/-! ## Encodings (spec/30_encoding.md) -/

/-- R68: the seven select codes that select nothing, and the refusal they get in every phase. -/
def Obligations.IllegalSelectsAreRefused : Prop :=
  (∀ p : HostPorts, (p.op = 0x0 → decode (.host p) = .ok .illegal0) ∧ (p.op = 0x7 → decode (.host p) = .ok .illegal7) ∧
    (p.op = 0xB → decode (.host p) = .ok .illegalB) ∧ (p.op = 0xC → decode (.host p) = .ok .illegalC) ∧
    (p.op = 0xD → decode (.host p) = .ok .illegalD) ∧ (p.op = 0xE → decode (.host p) = .ok .illegalE) ∧
    (p.op = 0xF → decode (.host p) = .ok .illegalF)) ∧
  ∀ s : State, ∀ op ∈ [Instr.illegal0, .illegal7, .illegalB, .illegalC, .illegalD, .illegalE, .illegalF],
    ∃ t, exec op s = .next t ∧ t.ports.refused = true ∧ t.ports.out = 0 ∧ t.ports.flush = false ∧
      t.afu = s.afu ∧ t.chan = s.chan ∧ t.host = s.host ∧ t.feed = s.feed

/-- The data field (spec/30_encoding.md section 2): split and joined big-endian, unsigned, in a request and in a response. -/
def Obligations.DataFieldIsBigEndian : Prop :=
  (∀ (u c p : Byte) (d : Half),
    256 * (build u c p d)[4].toNat + (build u c p d)[5].toNat = d.toNat ∧ data16 (build u c p d) = d) ∧
  (∀ f : Frame, (data16 f).toNat = 256 * f[4].toNat + f[5].toNat ∧
    hi8 (data16 f) = f[4] ∧ lo8 (data16 f) = f[5])

/-- The port event of every well-formed instruction decodes to it, with every operand, and only well-formed instructions are
decoded. The verbs' event is the model's form of `verb(args)` (log 13). -/
def Obligations.DecodeOfEncode : Prop :=
  (∀ i : Instr, i.wellFormed = true → decode (encode i) = .ok i) ∧
  (∀ (e : PortEvent) (i : Instr), decode e = .ok i → i.wellFormed = true)

/-- The words of section 3 of spec/30_encoding.md, of the RX port and of the frame carry every bit of every operand (log 12 for
how a word's port is told). -/
def Obligations.TableWordsDecode : Prop :=
  ∀ (i : Instr) (n w : Nat), i.wellFormed = true → tableWord i = some (n, w) → decodeTableWord n w = some i

/-- Section 3 of spec/30_encoding.md: ports an operation does not name are ignored, whatever they carry. -/
def Obligations.UnnamedPortsAreIgnored : Prop :=
  ∀ p q : HostPorts, p.op = q.op →
    (p.op = 0x1 → p.unit = q.unit ∧ p.cmd = q.cmd ∧ p.par = q.par ∧ p.data = q.data) →
    (p.op = 0x5 → p.idx = q.idx) →
    (p.op = 0x8 ∨ p.op = 0x9 ∨ p.op = 0xA → p.fin = q.fin) →
    (p.op = 0xA → p.fin2 = q.fin2 ∧ p.count = q.count) →
    decodeHost p = decodeHost q

/-- A few words written out from the spec decode to their instructions: programs P1, P2 and P7 of spec/95_test_vectors.md and the
RX port's nine bits. How a word's port is told, and that a 64-bit word is a frame on the wire, is the model's choice (log 12). -/
def Obligations.WordsOfTheSpecDecode : Prop :=
  decodeTableWord 48 0x1104B0801F4 = some (.build 16 0x4B 0x08 500) ∧
  decodeTableWord 8 0x2 = some .start ∧
  decodeTableWord 8 0b0101110 = some (.getb 6) ∧
  decodeTableWord 8 0x7 = some .illegal7 ∧
  decodeTableWord 16 0x03C = some (.rxb 0x3C) ∧
  decodeTableWord 16 0x100 = some .rxend ∧
  decodeTableWord 64 0x103C05000000_00AF = some (.frame [0x10, 0x3C, 0x05, 0, 0, 0, 0, 0xAF])

/-! ## Sequencing, reset, the step (spec/10_state.md, spec/70_reset_and_hazards.md) -/

/-- R32's table for the operations of the block: whether the operation is enabled. The illegal selects never are (R68); the
table has no row for the verbs and the frame on the wire, about which nothing is stated here. -/
def enabledByTable : Instr → Afu → Bool
  | .build _ _ _ _, a => a.ph == .idle || a.ph == .loaded || a.ph == .done
  | .start, a => a.ph == .loaded
  | .txb, a => a.ph == .tx && decide (a.txi.toNat < 8)
  | .rxb _, a => a.ph == .rx && decide (a.rxn.toNat < 8)
  | .rxend, a => a.ph == .rx
  | .getdata, a | .getb _, a | .sigcmp, a => a.ph == .done && a.res == .ok
  | .getstat, _ | .cksum _, _ | .ckvalid _, _ | .validate _ _ _, _ => true
  | .illegal0, _ | .illegal7, _ | .illegalB, _ | .illegalC, _ | .illegalD, _ | .illegalE, _ | .illegalF, _ => false
  | .getParam _, _ | .setParam _ _, _ | .move _, _ | .state, _ | .reset, _ | .echo, _ | .stop, _ => false
  | .enableTracking, _ | .result _, _ | .frame _, _ => false

/-- The phase R32's table gives after an enabled operation. -/
def phaseByTable : Instr → Afu → Phase
  | .build _ _ _ _, _ => .loaded
  | .start, _ => .tx
  | .txb, a => if a.txi.toNat = 7 then .rx else a.ph
  | .rxend, _ => .done
  | .rxb _, a | .getdata, a | .getb _, a | .sigcmp, a => a.ph
  | .getstat, a | .cksum _, a | .ckvalid _, a | .validate _ _ _, a => a.ph
  | .illegal0, a | .illegal7, a | .illegalB, a | .illegalC, a | .illegalD, a | .illegalE, a | .illegalF, a => a.ph
  | .getParam _, a | .setParam _ _, a | .move _, a | .state, a | .reset, a | .echo, a | .stop, a => a.ph
  | .enableTracking, a | .result _, a | .frame _, a => a.ph

/-- Section 5 of spec/10_state.md: which operation is enabled in which phase and where the phase goes; a host operation that is not
enabled (an illegal select never is) is refused, changing nothing; a step of the AFU or the CHANNEL that is not enabled does not
exist, which the model says by a refusal (log 9); with eight bytes RXEND is forced, so the machine left alone takes it (log 19);
GETSTAT and the pure operations change nothing in any phase. -/
def Obligations.SequencingFollowsTheTable : Prop :=
  (∀ (i : Instr) (s : State), isVerb i = false → i.agent ≠ .wire →
    (enabledByTable i s.afu = true →
      ∃ t, exec i s = .next t ∧ t.ports.refused = false ∧ t.afu.ph = phaseByTable i s.afu) ∧
    (enabledByTable i s.afu = false → i.agent = .host →
      ∃ t, exec i s = .next t ∧ t.ports.refused = true ∧ t.ports.out = 0 ∧ t.ports.flush = false ∧
        t.afu = s.afu ∧ t.chan = s.chan ∧ t.host = s.host ∧ t.feed = s.feed) ∧
    (enabledByTable i s.afu = false → i.agent ≠ .host → exec i s = .refused .stepNotEnabled)) ∧
  (∀ s : State, s.afu.ph = .rx → s.afu.rxn = 8 → s.feed = [] → step s = exec .rxend s) ∧
  (∀ (s : State) (f g : BitVec 64) (n : BitVec 4), ∀ op ∈ [Instr.getstat, .cksum f, .ckvalid f, .validate f g n],
    ∃ t, exec op s = .next t ∧ t.ports.refused = false ∧ t = { s with ports := t.ports })

/-- R34: what reset leaves, the values the spec gives; STATUS is 0. -/
def Obligations.ResetStateHoldsTheResetValues : Prop :=
  State.reset.afu.ph = .idle ∧ State.reset.afu.res = .none ∧ State.reset.afu.err = 0 ∧ State.reset.afu.txi = 0 ∧
  State.reset.afu.rxn = 0 ∧ State.reset.afu.status = 0 ∧ State.reset.ports.refused = false ∧
  State.reset.ports.out = 0 ∧ State.reset.ports.txByte = 0 ∧ State.reset.ports.flush = false

/-- The reset event and what can be done after it (spec/70_reset_and_hazards.md section 1): in any phase, the registers and
outputs go to their reset values, the channel is left alone; then GETSTAT answers 0 and START and the reads are refused. That the
reset input comes from the list of inputs is log 3's. -/
def Obligations.ResetEventInAnyPhase : Prop :=
  ∀ (s : State) (rest : List Input), s.feed = .resetInput :: rest →
    ∃ t, step s = .next t ∧ t.afu.ph = .idle ∧ t.afu.res = .none ∧ t.afu.err = 0 ∧ t.afu.txi = 0 ∧ t.afu.rxn = 0 ∧
      t.ports = { out := 0, refused := false, txByte := 0, flush := false } ∧
      t.chan = s.chan ∧ t.host.cfg = s.host.cfg ∧ t.feed = rest ∧
      (∃ u, exec .getstat t = .next u ∧ u.ports.out = 0 ∧ u.ports.refused = false) ∧
      (∀ i : BitVec 3, ∀ op ∈ [Instr.start, .getdata, .getb i, .sigcmp],
        ∃ u, exec op t = .next u ∧ u.ports.refused = true ∧ u.afu = t.afu ∧ u.chan = t.chan)

/-- A step runs the decoded instruction: where the host has no turn of its own (log 27), the input at the head is taken off and the
instruction it decodes to is executed (log 3). -/
def Obligations.StepRunsTheDecodedInstruction : Prop :=
  ∀ (s : State) (e : PortEvent) (rest : List Input) (i : Instr),
    hostTurn s = none → s.feed = .port e :: rest → decode e = .ok i → step s = exec i { s with feed := rest }

/-- `withFetchWord` makes the very next step run the table word's instruction on the state itself (log 12), with the host free where
it had a turn of its own (log 27). -/
def Obligations.FetchedWordRunsNext : Prop :=
  ∀ (s : State) (n w : Nat) (i : Instr), decodeTableWord n w = some i →
    (hostTurn s = none → step (s.withFetchWord n w) = exec i s) ∧
    (hostTurn s ≠ none → step (s.withFetchWord n w) = exec i s.freeHost)

/-- Inputs that are no instruction (log 3, 13), taken where the host has no turn of its own (log 27): bytes reaching the channel are
held behind those already there (R48), and bytes on the wire that are not eight are refused by name. -/
def Obligations.InputsThatAreNoInstruction : Prop :=
  (∀ (s : State) (b : Byte) (rest : List Input), hostTurn s = none → s.feed = .arrive b :: rest →
    ∃ t, step s = .next t ∧ t.chan = { s.chan with input := s.chan.input ++ [b] } ∧ t.afu = s.afu ∧
      t.host = s.host ∧ t.feed = rest) ∧
  (∀ (s : State) (bs : List Byte) (rest : List Input), hostTurn s = none → s.feed = .port (.wire bs) :: rest →
    bs.length ≠ 8 → step s = .refused (.undecodable (.frameLength bs.length)))

/-- FRAME, the model's reading of the layout row (log 8): the bytes are held by the channel behind those already there, and the
block and everything else stay as they are. -/
def Obligations.FrameReachesTheChannel : Prop :=
  ∀ (bs : List Byte) (s : State), bs.length = 8 →
    ∃ t, exec (.frame bs) s = .next t ∧ t.chan = { s.chan with input := s.chan.input ++ bs } ∧
      t.afu = s.afu ∧ t.host = s.host ∧ t.feed = s.feed ∧ t.ports.flush = false ∧ t.ports.refused = false

/-- Held bytes are delivered in order, once the block collects (spec/20_memory.md section 3; log 7, 19): left alone, the machine
takes RXB of the oldest, which then leaves the buffer. -/
def Obligations.HeldBytesAreDeliveredInOrder : Prop :=
  ∀ (s : State) (b : Byte) (held : List Byte), s.afu.ph = .rx → s.afu.rxn.toNat < 8 → s.feed = [] →
    s.chan.input = b :: held →
    step s = exec (.rxb b) s ∧ ∃ t, step s = .next t ∧ t.chan.input = held ∧
      t.afu.rxf.toList = s.afu.rxf.toList.set s.afu.rxn.toNat b ∧ t.afu.rxn.toNat = s.afu.rxn.toNat + 1

/-- An exchange may never end (spec/70_reset_and_hazards.md section 3): where the channel does not move, the machine can run any
number of steps and the block stays in RX; BUILD and START are refused there. That the channel's moves stand in the state is log
5's, and what the machine does left alone is log 19's. -/
def Obligations.ExchangeMayNeverEnd : Prop :=
  ∀ s : State, s.afu.ph = .rx → s.afu.rxn.toNat < 8 → s.feed = [] → s.chan.input = [] → s.chan.coming = [] →
    (∀ n : Nat, ∃ t, Host.Core.run Sys2Proof.core n s = .next t ∧ t.afu = s.afu ∧ t.chan = s.chan) ∧
    (∀ (u c p : Byte) (d : Half), ∀ op ∈ [Instr.build u c p d, .start],
      ∃ t, exec op s = .next t ∧ t.ports.refused = true ∧ t.afu = s.afu)

/-! ## Invariants and whole-machine rules -/

/-- Section 7 of spec/10_state.md, (1) to (7): the invariant holds at reset, and so does that of a
host inside a verb (log 4). -/
def Obligations.InvariantAtReset : Prop := State.reset.Inv ∧ State.reset.HostInv

/-- Section 7 of spec/10_state.md, (1) to (7): every step keeps the invariant, from every state that has it. That the channel's output
stream keeps the bytes sent is log 6's. -/
def Obligations.StepKeepsTheInvariant : Prop :=
  ∀ s t : State, s.Inv → step s = .next t → t.Inv

/-- Section 7 of spec/10_state.md, (8), and U1: no step tells apart two states of the invariant that differ only in bytes no rule
reads (`TXF` in IDLE, `RXF` at or above `RXN`), whatever the input. -/
def Obligations.UnreadBytesAreNeverSeen : Prop :=
  ∀ s t : State, s.Inv → t.Inv → s.Agree t → sameOutcome State.Agree (step s) (step t)

/-- Which operation writes a frame buffer (spec/10_state.md section 1): `TXF` BUILD alone, all of it; `RXF` RXB alone, at `RXN`
alone. The verbs run those operations. -/
def Obligations.BuffersAreWrittenByBuildAndRxbOnly : Prop :=
  ∀ (i : Instr) (s t : State), isVerb i = false → exec i s = .next t →
    ((∀ u c p d, i ≠ .build u c p d) → t.afu.txf = s.afu.txf) ∧
    ((∀ b, i ≠ .rxb b) → t.afu.rxf = s.afu.rxf) ∧
    (∀ k, k ≠ s.afu.rxn.toNat → t.afu.rxf.toList[k]? = s.afu.rxf.toList[k]?)

/-- R195: the only way into phase TX is START, and START flushes. The verbs run START. -/
def Obligations.OnlyStartEntersTxAndItFlushes : Prop :=
  ∀ (i : Instr) (s t : State), isVerb i = false → exec i s = .next t → s.afu.ph ≠ .tx → t.afu.ph = .tx →
    i = .start ∧ t.ports.flush = true ∧ t.chan.input = [] ∧ t.chan.output = []

/-- Leaving DONE (spec/60_exceptions.md section 4): whatever the outcome, the only operation that changes a register in DONE is
BUILD, and it clears the outcome. -/
def Obligations.OnlyBuildLeavesDone : Prop :=
  ∀ (i : Instr) (s t : State), isVerb i = false → s.afu.ph = .done → exec i s = .next t → t.afu ≠ s.afu →
    (∃ u c p d, i = .build u c p d) ∧ t.afu.ph = .loaded ∧ t.afu.res = .none ∧ t.afu.err = 0

/-- The reads and the pure operations have no side effect and repeat (spec/20_memory.md section 4): beyond the output ports nothing
changes, and a second issue gives the same state again. -/
def Obligations.ReadsAndPureOperationsRepeat : Prop :=
  ∀ (s : State) (j : BitVec 3) (f g : BitVec 64) (n : BitVec 4),
    ∀ op ∈ [Instr.getstat, .getdata, .getb j, .sigcmp, .cksum f, .ckvalid f, .validate f g n],
      ∃ t, exec op s = .next t ∧ t = { s with ports := t.ports } ∧ exec op t = .next t

/-- The host's tables and codes are immutable (spec/20_memory.md section 1): no step changes them. -/
def Obligations.HostParametersNeverChange : Prop :=
  ∀ s t : State, step s = .next t → t.host.cfg = s.host.cfg

/-! ## The verbs (spec/43_protocol_verbs.md)

In these the call of the verb is its first operation, and the others follow, each a step of its own (log 4), with no input coming
and over a plan of the channel that may be any response of up to eight bytes (log 5). -/

/-- What a verb does when it has its request: the call completes and is the BUILD of it, and the machine, left alone, goes through
the exchange to the result or error for the response, in at most 22 steps: START, eight TXB, up to eight RXB, RXEND, GETSTAT and up
to three reads. -/
def VerbExchanges (i : Instr) (k : Reading) (q : Frame) (s : State) : Prop :=
  ∀ (a : List Byte) (rest : List ChanMove), s.host.call = none → s.afu.ph ≠ .tx → s.afu.ph ≠ .rx → s.feed = [] →
    Delivers s.chan.coming a rest →
    ∃ u, exec i s = .next u ∧
      u.afu = { s.afu with txf := q, txi := 0, rxn := 0, res := .none, err := 0, ph := .loaded } ∧ u.chan = s.chan ∧
      u.host = { s.host with call := some (.built k), result := none } ∧ u.feed = [] ∧
      ∃ n ≤ 22, ∃ t, steps n u = .next t ∧ Exchanged s t q a rest ∧
        t.host = { s.host with call := none, result := some (replyResult k q a) }

/-- `get_param` and `result` (section 2): the named descriptor's code with the get-parameter or the get-result command 0x3C and
data 0; the result is the 16-bit data value. -/
def Obligations.GetParamAndResultReadAValue : Prop :=
  ∀ (s : State) (name : String) (d : Descriptor),
    (lookup s.host.cfg.params name = some d →
      VerbExchanges (.getParam name) .data (build s.host.cfg.unit s.host.cfg.cmdGetParam d.code 0) s) ∧
    (lookup s.host.cfg.results name = some d →
      VerbExchanges (.result name) .data (build s.host.cfg.unit 0x3C d.code 0) s)

/-- `set_param` (section 2), with the range check of section 1: in range, both ends included, it exchanges the value as its data; out
of range it raises `OutOfRange` before any I/O. The verb's steps are log 4's, the channel's plan log 5's. -/
def Obligations.SetParamChecksTheRangeFirst : Prop :=
  ∀ (s : State) (name : String) (value : Int) (d : Descriptor), lookup s.host.cfg.params name = some d →
    ((d.min.toNat : Int) ≤ value → value ≤ (d.max.toNat : Int) →
      ∃ v : Half, (v.toNat : Int) = value ∧
        VerbExchanges (.setParam name value) .nothing (build s.host.cfg.unit s.host.cfg.cmdSetParam d.code v) s) ∧
    (value < (d.min.toNat : Int) ∨ (d.max.toNat : Int) < value → s.host.call = none →
      ∃ t, exec (.setParam name value) s = .next t ∧
        t.host.result = some (.raised (.outOfRange name value d.min d.max)) ∧ t.host.call = none ∧
        t.host.cfg = s.host.cfg ∧ t.host.pending = s.host.pending ∧ t.afu = s.afu ∧ t.chan = s.chan ∧ t.feed = s.feed ∧
        t.ports.flush = false)

/-- `move` (section 2): the speed masked to 16 bits, whatever it is, with no range check. -/
def Obligations.MoveSendsTheMaskedSpeed : Prop :=
  ∀ (s : State) (speed : Int), ∃ v : Half, (v.toNat : Int) = speed % 65536 ∧
    VerbExchanges (.move speed) .nothing (build s.host.cfg.unit s.host.cfg.cmdExec s.host.cfg.subSetrot v) s

/-- `reset`, `stop`, `enable_tracking` (section 2): the execute-action command with its sub-code and data 0; nothing is decoded. -/
def Obligations.ActionVerbsExchange : Prop :=
  ∀ s : State,
    VerbExchanges .reset .nothing (build s.host.cfg.unit s.host.cfg.cmdExec s.host.cfg.subReset 0) s ∧
    VerbExchanges .stop .nothing (build s.host.cfg.unit s.host.cfg.cmdExec s.host.cfg.subStop 0) s ∧
    VerbExchanges .enableTracking .nothing (build s.host.cfg.unit s.host.cfg.cmdExec s.host.cfg.subEnrot 0) s

/-- `state` and `echo` (section 2): the fixed code 0x1C and the three raw bytes given to STATE_LAYOUT (log 15); the echo command
0xF0 and the signature compare, which answers only after a good validation. -/
def Obligations.StateAndEchoDecode : Prop :=
  ∀ s : State,
    VerbExchanges .state .flags (build s.host.cfg.unit s.host.cfg.cmdGetParam 0x1C 0) s ∧
    VerbExchanges .echo .signature (build s.host.cfg.unit 0xF0 s.host.cfg.parEcho 0) s

/-- R138: the lookup precedes everything else: an absent name raises `UnknownParameter` whatever the value, with the block, the
channel and the wire untouched; `get_param` and `set_param` look in PARAMS, `result` in RESULTS; the match is on the exact key. -/
def Obligations.AbsentNamesRaiseBeforeAnything : Prop :=
  (∀ (s : State) (name : String) (value : Int) (i : Instr), s.host.call = none →
    (lookup s.host.cfg.params name = none ∧ (i = .getParam name ∨ i = .setParam name value)) ∨
      (lookup s.host.cfg.results name = none ∧ i = .result name) →
    ∃ t, exec i s = .next t ∧ t.host.result = some (.raised (.unknownParameter name)) ∧ t.host.call = none ∧
      t.host.cfg = s.host.cfg ∧ t.host.pending = s.host.pending ∧ t.afu = s.afu ∧ t.chan = s.chan ∧ t.feed = s.feed ∧
        t.ports.flush = false) ∧
  (∀ (table : Table) (name : String), lookup table name = none ↔ ∀ e ∈ table, e.1 ≠ name)

/-- A verb called while an exchange is under way (log 25): its BUILD is refused (section 5 of spec/10_state.md), so the block, the
channel and the frame under transfer stay as they are, and the call completes. -/
def Obligations.VerbDuringAnExchangeKeepsTheRequest : Prop :=
  ∀ (s : State) (i : Instr), isVerb i = true → s.host.call = none → s.afu.ph = .tx ∨ s.afu.ph = .rx →
    ∃ t, exec i s = .next t ∧ t.afu = s.afu ∧ t.chan = s.chan ∧
      t.host.cfg = s.host.cfg ∧ t.host.pending = s.host.pending ∧ t.feed = s.feed

/-- What a verb does when the channel delivers fewer than eight bytes and then nothing, ever: from some step on, it waits. -/
def VerbWaits (i : Instr) (k : Reading) (q : Frame) (s : State) : Prop :=
  ∀ a : List Byte, s.host.call = none → s.afu.ph ≠ .tx → s.afu.ph ≠ .rx → s.feed = [] → a.length < 8 →
    s.chan.coming = a.map ChanMove.byte →
    ∃ u, exec i s = .next u ∧ ∃ n, ∀ m, ∃ t, steps (n + m) u = .next t ∧
      t.afu.ph = .rx ∧ t.afu.rxn.toNat = a.length ∧ memRead t.afu.rxf 0 a.length = a ∧
      t.afu.txf = q ∧ t.chan = { input := [], output := q.toList, coming := [] } ∧
      t.host = { s.host with call := some (.waiting k), result := none } ∧ t.feed = []

/-- A verb whose exchange the channel does not end waits in it (section 3 of spec/70_reset_and_hazards.md; log 4): the request is
sent, and however many steps follow the block stays in RX with the bytes that came, and the verb has no result. -/
def Obligations.VerbWaitsForTheChannel : Prop :=
  ∀ (s : State) (name : String) (value : Int) (d : Descriptor),
    (lookup s.host.cfg.params name = some d →
      VerbWaits (.getParam name) .data (build s.host.cfg.unit s.host.cfg.cmdGetParam d.code 0) s ∧
      ((d.min.toNat : Int) ≤ value → value ≤ (d.max.toNat : Int) →
        VerbWaits (.setParam name value) .nothing (build s.host.cfg.unit s.host.cfg.cmdSetParam d.code (mask16 value)) s)) ∧
    (lookup s.host.cfg.results name = some d →
      VerbWaits (.result name) .data (build s.host.cfg.unit 0x3C d.code 0) s) ∧
    VerbWaits (.move value) .nothing (build s.host.cfg.unit s.host.cfg.cmdExec s.host.cfg.subSetrot (mask16 value)) s ∧
    VerbWaits .state .flags (build s.host.cfg.unit s.host.cfg.cmdGetParam 0x1C 0) s ∧
    VerbWaits .reset .nothing (build s.host.cfg.unit s.host.cfg.cmdExec s.host.cfg.subReset 0) s ∧
    VerbWaits .echo .signature (build s.host.cfg.unit 0xF0 s.host.cfg.parEcho 0) s ∧
    VerbWaits .stop .nothing (build s.host.cfg.unit s.host.cfg.cmdExec s.host.cfg.subStop 0) s ∧
    VerbWaits .enableTracking .nothing (build s.host.cfg.unit s.host.cfg.cmdExec s.host.cfg.subEnrot 0) s

/-- A waiting verb is answered in the steps after its exchange has ended, one look and at most three reads, whatever input has come
but the reset (section 1 of spec/43_protocol_verbs.md; log 4, 27), with the block, the channel, the inputs and the calls that wait
left as they are. -/
def Obligations.WaitingVerbIsAnsweredWhenDone : Prop :=
  ∀ (s : State) (k : Reading), s.Inv → s.host.call = some (.waiting k) → s.afu.ph = .done →
    s.feed.head? ≠ some .resetInput →
    ∃ n ≤ 4, ∃ t, steps n s = .next t ∧ t.afu = s.afu ∧ t.chan = s.chan ∧ t.feed = s.feed ∧
      t.host = { s.host with
        call := none, result := some (replyResult k s.afu.txf (memRead s.afu.rxf 0 s.afu.rxn.toNat)) }

/-- The host runs its verbs one after the other (spec/20_memory.md section 6: one operation at a time, callers serialised; log
10, 27). A call made inside an earlier verb completes: it takes its place behind those that wait, and nothing else changes. In a
phase where no exchange is under way, with no verb running, the next step begins the oldest of them, whatever input has come but
the reset; the step is that of the call itself. -/
def Obligations.CallsWaitTheirTurn : Prop :=
  (∀ (s : State) (i : Instr), isVerb i = true → s.host.call ≠ none →
    ∃ v : VerbCall, v.instr = i ∧ ∃ t, exec i s = .next t ∧
      t.host = { s.host with pending := s.host.pending ++ [v] } ∧ t.afu = s.afu ∧ t.chan = s.chan ∧ t.feed = s.feed ∧
      t.ports.flush = false ∧ t.ports.refused = false) ∧
  (∀ (s : State) (v : VerbCall) (rest : List VerbCall), s.host.call = none → s.host.pending = v :: rest →
    s.afu.ph ≠ .tx → s.afu.ph ≠ .rx → s.feed.head? ≠ some .resetInput →
    step s = exec v.instr { s with host := { s.host with pending := rest } })

/-- A host inside a verb finds the block where the verb left it (section 1 of spec/43_protocol_verbs.md; log 4, 14, 27): built, then
under way or done, then validated with the bytes read so far the response's own. Every step keeps this, from every state
that has it, so no input strands the verb. -/
def Obligations.WaitingVerbIsNeverStranded : Prop :=
  ∀ s t : State, s.HostInv → step s = .next t → t.HostInv

/-- A verb is made of single operations of the block, each an indivisible step, and its frame transfer is not one (section 4 of
spec/20_memory.md; log 4): the call does what one BUILD does to block, channel and outputs, or nothing where it raises; the host's
turn inside a verb, in every state where the verb finds the block as it left it, does what one START, GETSTAT, GETDATA, GETB or
SIGCMP does; and at every point of it, in whatever phase, the
reset input takes effect at once. -/
def Obligations.VerbsAreMadeOfSingleOperations : Prop :=
  (∀ (s : State) (i : Instr), isVerb i = true → s.host.call = none → ∃ t, exec i s = .next t ∧
    ((t.host.call = none ∧ t.afu = s.afu ∧ t.chan = s.chan ∧ t.ports = Ports.idle) ∨
     (t.host.call ≠ none ∧ ∃ u c p d v, exec (.build u c p d) s = .next v ∧
       t.afu = v.afu ∧ t.chan = v.chan ∧ t.ports = v.ports))) ∧
  (∀ (s t : State) (c : CallState), s.HostInv → s.host.call = some c → hostTurn s = some t →
    ∃ (j : BitVec 3) (v : State), ∃ op ∈ [Instr.start, .getstat, .getdata, .getb j, .sigcmp],
      exec op s = .next v ∧ t.afu = v.afu ∧ t.chan = v.chan ∧ t.ports = v.ports ∧ t.feed = v.feed) ∧
  (∀ (s : State) (rest : List Input), s.host.call ≠ none → s.feed = .resetInput :: rest →
    ∃ t, step s = .next t ∧ t.afu = Afu.reset ∧ t.chan = s.chan ∧ t.host = { s.host with call := none } ∧ t.feed = rest)
end

