-- ==== Sys2Proof/Laws/Operands.lean ====
section
/-! SUPPORT. What the operand forms and the checksum functions compute, one lemma per function. -/

namespace Sys2Proof.Machine

theorem hi8_toNat (d : Half) : (hi8 d).toNat = d.toNat / 256 := by
  have := d.isLt
  simp only [hi8, BitVec.extractLsb'_toNat, Nat.shiftRight_eq_div_pow]
  omega

theorem lo8_toNat (d : Half) : (lo8 d).toNat = d.toNat % 256 := by
  simp [lo8, BitVec.extractLsb'_toNat]

theorem cat16_toNat (h l : Byte) : (cat16 h l).toNat = 256 * h.toNat + l.toNat := by
  have := l.isLt
  rw [cat16, BitVec.toNat_append, ← Nat.shiftLeft_add_eq_or_of_lt this, Nat.shiftLeft_eq]
  omega

/-- Splitting the data field and joining it again gives it back (R64, R89 (c)). -/
theorem cat16_hi8_lo8 (d : Half) : cat16 (hi8 d) (lo8 d) = d := by
  apply BitVec.eq_of_toNat_eq
  rw [cat16_toNat, hi8_toNat, lo8_toNat]
  omega

theorem hi8_cat16 (h l : Byte) : hi8 (cat16 h l) = h := by
  apply BitVec.eq_of_toNat_eq
  have := l.isLt
  rw [hi8_toNat, cat16_toNat]
  omega

theorem lo8_cat16 (h l : Byte) : lo8 (cat16 h l) = l := by
  apply BitVec.eq_of_toNat_eq
  have := l.isLt
  rw [lo8_toNat, cat16_toNat]
  omega

theorem add8_toNat (a b : Byte) : (add8 a b).toNat = (a.toNat + b.toNat) % 256 := by
  simp [add8]

theorem neg8_toNat (a : Byte) : (neg8 a).toNat = (256 - a.toNat) % 256 := by
  simp [neg8]

@[simp] theorem byteSum_nil : byteSum [] = 0 := rfl
@[simp] theorem byteSum_cons (b : Byte) (l : List Byte) : byteSum (b :: l) = b.toNat + byteSum l := rfl

theorem byteSum_append (l m : List Byte) : byteSum (l ++ m) = byteSum l + byteSum m := by
  induction l with
  | nil => simp
  | cons b l ih => simp [ih]; omega

theorem byteSum_le (l : List Byte) : byteSum l ≤ 255 * l.length := by
  induction l with
  | nil => simp
  | cons b l ih =>
    have := b.isLt
    simp only [byteSum_cons, List.length_cons]
    omega

theorem byteSum_perm {l m : List Byte} (h : l.Perm m) : byteSum l = byteSum m := by
  induction h with
  | nil => rfl
  | cons b _ ih => simp [ih]
  | swap a b l => simp; omega
  | trans _ _ ih₁ ih₂ => exact ih₁.trans ih₂

theorem mask16_toNat (x : Int) : ((mask16 x).toNat : Int) = x % 65536 := by
  rw [mask16, BitVec.toNat_ofInt, Int.toNat_of_nonneg (Int.emod_nonneg _ (by decide))]
  norm_num

theorem cksum_toNat (l : List Byte) : (cksum l).toNat = (256 - byteSum l % 256) % 256 := by
  rw [cksum, neg8_toNat]
  simp

theorem ckvalid_iff (l : List Byte) : ckvalid l = true ↔ byteSum l % 256 = 0 := by
  simp [ckvalid]

theorem ckvalid_false_iff (l : List Byte) : ckvalid l = false ↔ byteSum l % 256 ≠ 0 := by
  simp [ckvalid]

/-- A concatenation as a number: the left part counts in units of the right part's range (R10). -/
theorem append_toNat {n m : Nat} (x : BitVec n) (y : BitVec m) : (x ++ y).toNat = x.toNat * 2 ^ m + y.toNat := by
  rw [BitVec.toNat_append, ← Nat.shiftLeft_add_eq_or_of_lt y.isLt, Nat.shiftLeft_eq]

/-- The right part of a concatenation is its low bits. -/
theorem extract_append_low {n m : Nat} (x : BitVec n) (y : BitVec m) : (x ++ y).extractLsb' 0 m = y := by
  ext i hi
  simp [BitVec.getLsbD_append, hi]

/-- The bits of a concatenation above its right part are those of its left part. -/
theorem extract_append_high {n m : Nat} (x : BitVec n) (y : BitVec m) (k l : Nat) :
    (x ++ y).extractLsb' (m + k) l = x.extractLsb' k l := by
  ext i hi
  simp [BitVec.getLsbD_append, Nat.add_assoc]

theorem extract_self {n : Nat} (x : BitVec n) : x.extractLsb' 0 n = x := by
  ext i hi
  simp

/-- A frame as the list of its bytes. -/
theorem frame_toList (f : Frame) : f.toList = [f[0], f[1], f[2], f[3], f[4], f[5], f[6], f[7]] := by
  apply List.ext_getElem
  · simp
  · intro i h₁ h₂
    simp only [List.length_cons, List.length_nil] at h₂
    match i, h₂ with
    | 0, _ | 1, _ | 2, _ | 3, _ | 4, _ | 5, _ | 6, _ | 7, _ => simp

/-- Frames with the same bytes are the same. -/
theorem frame_ext {f g : Frame} (h : f.toList = g.toList) : f = g := by
  rcases f with ⟨a, ha⟩
  rcases g with ⟨b, hb⟩
  cases a; cases b
  simpa using h

/-- The frame port unpacked: byte 0 is in bits 63:56, byte 7 in bits 7:0 (R31). -/
theorem frameOfPort_append (b0 b1 b2 b3 b4 b5 b6 b7 : Byte) :
    frameOfPort (b0 ++ b1 ++ b2 ++ b3 ++ b4 ++ b5 ++ b6 ++ b7) = #v[b0, b1, b2, b3, b4, b5, b6, b7] := by
  have h0 : (b0 ++ b1 ++ b2 ++ b3 ++ b4 ++ b5 ++ b6 ++ b7).extractLsb' 56 8 = b0 := by
    rw [extract_append_high _ _ 48 8, extract_append_high _ _ 40 8, extract_append_high _ _ 32 8, extract_append_high _ _ 24 8,
      extract_append_high _ _ 16 8, extract_append_high _ _ 8 8, extract_append_high _ _ 0 8, extract_self]
  have h1 : (b0 ++ b1 ++ b2 ++ b3 ++ b4 ++ b5 ++ b6 ++ b7).extractLsb' 48 8 = b1 := by
    rw [extract_append_high _ _ 40 8, extract_append_high _ _ 32 8, extract_append_high _ _ 24 8,
      extract_append_high _ _ 16 8, extract_append_high _ _ 8 8, extract_append_high _ _ 0 8, extract_append_low]
  have h2 : (b0 ++ b1 ++ b2 ++ b3 ++ b4 ++ b5 ++ b6 ++ b7).extractLsb' 40 8 = b2 := by
    rw [extract_append_high _ _ 32 8, extract_append_high _ _ 24 8, extract_append_high _ _ 16 8,
      extract_append_high _ _ 8 8, extract_append_high _ _ 0 8, extract_append_low]
  have h3 : (b0 ++ b1 ++ b2 ++ b3 ++ b4 ++ b5 ++ b6 ++ b7).extractLsb' 32 8 = b3 := by
    rw [extract_append_high _ _ 24 8, extract_append_high _ _ 16 8, extract_append_high _ _ 8 8,
      extract_append_high _ _ 0 8, extract_append_low]
  have h4 : (b0 ++ b1 ++ b2 ++ b3 ++ b4 ++ b5 ++ b6 ++ b7).extractLsb' 24 8 = b4 := by
    rw [extract_append_high _ _ 16 8, extract_append_high _ _ 8 8, extract_append_high _ _ 0 8, extract_append_low]
  have h5 : (b0 ++ b1 ++ b2 ++ b3 ++ b4 ++ b5 ++ b6 ++ b7).extractLsb' 16 8 = b5 := by
    rw [extract_append_high _ _ 8 8, extract_append_high _ _ 0 8, extract_append_low]
  have h6 : (b0 ++ b1 ++ b2 ++ b3 ++ b4 ++ b5 ++ b6 ++ b7).extractLsb' 8 8 = b6 := by
    rw [extract_append_high _ _ 0 8, extract_append_low]
  have h7 : (b0 ++ b1 ++ b2 ++ b3 ++ b4 ++ b5 ++ b6 ++ b7).extractLsb' 0 8 = b7 := extract_append_low _ _
  apply frame_ext
  exact List.cons_eq_cons.2 ⟨h0, List.cons_eq_cons.2 ⟨h1, List.cons_eq_cons.2 ⟨h2, List.cons_eq_cons.2 ⟨h3,
    List.cons_eq_cons.2 ⟨h4, List.cons_eq_cons.2 ⟨h5, List.cons_eq_cons.2 ⟨h6, List.cons_eq_cons.2 ⟨h7, rfl⟩⟩⟩⟩⟩⟩⟩⟩

theorem memRead_zero (f : Frame) (n : Nat) : memRead f 0 n = f.toList.take n := by simp [memRead]

theorem memRead_all (f : Frame) : memRead f 0 8 = f.toList := by
  rw [memRead_zero, List.take_of_length_le (by simp)]

theorem memRead_length (f : Frame) (n : Nat) (h : n ≤ 8) : (memRead f 0 n).length = n := by
  simp [memRead_zero, h]

/-- `build` as a list of bytes (R95). -/
theorem build_toList (u c p : Byte) (d : Half) :
    (build u c p d).toList = [u, c, p, 0, hi8 d, lo8 d, 0, cksum [u, c, p, 0, hi8 d, lo8 d, 0]] := rfl

/-- Appending the checksum makes the sum a multiple of 256 (R84). -/
theorem byteSum_append_cksum (l : List Byte) : byteSum (l ++ [cksum l]) % 256 = 0 := by
  rw [byteSum_append]
  simp only [byteSum_cons, byteSum_nil, cksum_toNat]
  omega

/-- The outcome of validation, case by case (R114). -/
theorem validate_cases (q : Frame) (a : List Byte) :
    (a.length ≠ 8 ∧ validate q a = (.incomplete, 0)) ∨
    (a.length = 8 ∧ ckvalid a = false ∧ validate q a = (.checksum, 0)) ∨
    (a.length = 8 ∧ ckvalid a = true ∧ echoed a ≠ q[1] ∧ validate q a = (.deverr, echoed a)) ∨
    (a.length = 8 ∧ ckvalid a = true ∧ echoed a = q[1] ∧ validate q a = (.ok, 0)) := by
  by_cases h₁ : a.length = 8 <;> cases h₂ : ckvalid a <;> by_cases h₃ : echoed a = q[1] <;>
    simp [validate, h₁, h₂, h₃]

/-- The `out` word of VALIDATE is `ERR * 256 + RES` (R120). -/
theorem outcomeWord_toNat (r : Res × Byte) : (outcomeWord r).toNat = r.2.toNat * 256 + r.1.code.toNat := by
  have h₁ := r.2.isLt
  have h₂ := r.1.code.isLt
  simp only [outcomeWord, BitVec.toNat_setWidth, append_toNat, BitVec.toNat_ofNat]
  omega

/-- The fields of STATUS (R28). -/
theorem status_fields (a : Afu) :
    a.status.extractLsb' 0 3 = a.ph.code ∧ a.status.extractLsb' 3 3 = a.res.code ∧
    a.status.extractLsb' 6 4 = a.rxn ∧ a.status.extractLsb' 10 4 = a.txi ∧
    a.status.extractLsb' 14 2 = 0 ∧ a.status.extractLsb' 16 8 = a.err := by
  unfold Afu.status
  refine ⟨extract_append_low _ _, ?_, ?_, ?_, ?_, ?_⟩
  · rw [extract_append_high _ _ 0 3, extract_append_low]
  · rw [extract_append_high _ _ 3 4, extract_append_high _ _ 0 4, extract_append_low]
  · rw [extract_append_high _ _ 7 4, extract_append_high _ _ 4 4, extract_append_high _ _ 0 4, extract_append_low]
  · rw [extract_append_high _ _ 11 2, extract_append_high _ _ 8 2, extract_append_high _ _ 4 2,
      extract_append_high _ _ 0 2, extract_append_low]
    rfl
  · rw [extract_append_high _ _ 13 8, extract_append_high _ _ 10 8, extract_append_high _ _ 6 8,
      extract_append_high _ _ 2 8, extract_append_high _ _ 0 8, extract_self]

/-- Validation never answers NONE (R26). -/
theorem validate_ne_none (q : Frame) (a : List Byte) : (validate q a).1 ≠ .none := by
  rcases validate_cases q a with ⟨_, h⟩ | ⟨_, _, h⟩ | ⟨_, _, _, h⟩ | ⟨_, _, _, h⟩ <;> simp [h]

theorem inRange_iff (d : Descriptor) (x : Int) :
    inRange d x = true ↔ (d.min.toNat : Int) ≤ x ∧ x ≤ (d.max.toNat : Int) := by
  simp [inRange]

end Sys2Proof.Machine
end

