-- ==== Sys2Proof/Laws/State.lean ====
section
/-! SUPPORT. One lemma per field per update of the state, true by definition, so that no later proof unfolds an update. -/

namespace Sys2Proof.Machine

@[simp] theorem idle_afu (s : State) : (idle s).afu = s.afu := rfl
@[simp] theorem idle_ports (s : State) : (idle s).ports = Ports.idle := rfl
@[simp] theorem idle_chan (s : State) : (idle s).chan = s.chan := rfl
@[simp] theorem idle_host (s : State) : (idle s).host = s.host := rfl
@[simp] theorem idle_feed (s : State) : (idle s).feed = s.feed := rfl

@[simp] theorem refuse_afu (s : State) : (refuse s).afu = s.afu := rfl
@[simp] theorem refuse_ports (s : State) :
    (refuse s).ports = { out := 0, refused := true, txByte := 0, flush := false } := rfl
@[simp] theorem refuse_chan (s : State) : (refuse s).chan = s.chan := rfl
@[simp] theorem refuse_host (s : State) : (refuse s).host = s.host := rfl
@[simp] theorem refuse_feed (s : State) : (refuse s).feed = s.feed := rfl

@[simp] theorem answer_afu (v : BitVec 24) (s : State) : (answer v s).afu = s.afu := rfl
@[simp] theorem answer_ports (v : BitVec 24) (s : State) :
    (answer v s).ports = { out := v, refused := false, txByte := 0, flush := false } := rfl
@[simp] theorem answer_chan (v : BitVec 24) (s : State) : (answer v s).chan = s.chan := rfl
@[simp] theorem answer_host (v : BitVec 24) (s : State) : (answer v s).host = s.host := rfl
@[simp] theorem answer_feed (v : BitVec 24) (s : State) : (answer v s).feed = s.feed := rfl

@[simp] theorem arriveStep_afu (bs : List Byte) (s : State) : (arriveStep bs s).afu = s.afu := rfl
@[simp] theorem arriveStep_ports (bs : List Byte) (s : State) : (arriveStep bs s).ports = Ports.idle := rfl
@[simp] theorem arriveStep_chan (bs : List Byte) (s : State) : (arriveStep bs s).chan = s.chan.receive bs := rfl
@[simp] theorem arriveStep_host (bs : List Byte) (s : State) : (arriveStep bs s).host = s.host := rfl
@[simp] theorem arriveStep_feed (bs : List Byte) (s : State) : (arriveStep bs s).feed = s.feed := rfl

@[simp] theorem resetStep_afu (s : State) : (resetStep s).afu = Afu.reset := rfl
@[simp] theorem resetStep_ports (s : State) : (resetStep s).ports = Ports.idle := rfl
@[simp] theorem resetStep_chan (s : State) : (resetStep s).chan = s.chan := rfl
@[simp] theorem resetStep_cfg (s : State) : (resetStep s).host.cfg = s.host.cfg := rfl
@[simp] theorem resetStep_call (s : State) : (resetStep s).host.call = none := rfl
@[simp] theorem resetStep_pending (s : State) : (resetStep s).host.pending = s.host.pending := rfl
@[simp] theorem resetStep_result (s : State) : (resetStep s).host.result = s.host.result := rfl
@[simp] theorem resetStep_feed (s : State) : (resetStep s).feed = s.feed := rfl

@[simp] theorem giveBack_afu (r : VerbResult) (s : State) : (giveBack r s).afu = s.afu := rfl
@[simp] theorem giveBack_ports (r : VerbResult) (s : State) : (giveBack r s).ports = s.ports := rfl
@[simp] theorem giveBack_chan (r : VerbResult) (s : State) : (giveBack r s).chan = s.chan := rfl
@[simp] theorem giveBack_feed (r : VerbResult) (s : State) : (giveBack r s).feed = s.feed := rfl
@[simp] theorem giveBack_cfg (r : VerbResult) (s : State) : (giveBack r s).host.cfg = s.host.cfg := rfl
@[simp] theorem giveBack_pending (r : VerbResult) (s : State) : (giveBack r s).host.pending = s.host.pending := rfl
@[simp] theorem giveBack_call (r : VerbResult) (s : State) : (giveBack r s).host.call = none := rfl
@[simp] theorem giveBack_result (r : VerbResult) (s : State) : (giveBack r s).host.result = some r := rfl

@[simp] theorem goOn_afu (c : CallState) (s : State) : (goOn c s).afu = s.afu := rfl
@[simp] theorem goOn_ports (c : CallState) (s : State) : (goOn c s).ports = s.ports := rfl
@[simp] theorem goOn_chan (c : CallState) (s : State) : (goOn c s).chan = s.chan := rfl
@[simp] theorem goOn_feed (c : CallState) (s : State) : (goOn c s).feed = s.feed := rfl
@[simp] theorem goOn_cfg (c : CallState) (s : State) : (goOn c s).host.cfg = s.host.cfg := rfl
@[simp] theorem goOn_pending (c : CallState) (s : State) : (goOn c s).host.pending = s.host.pending := rfl
@[simp] theorem goOn_call (c : CallState) (s : State) : (goOn c s).host.call = some c := rfl
@[simp] theorem goOn_result (c : CallState) (s : State) : (goOn c s).host.result = none := rfl

@[simp] theorem raise_afu (e : VerbError) (s : State) : (raise e s).afu = s.afu := rfl
@[simp] theorem raise_ports (e : VerbError) (s : State) : (raise e s).ports = s.ports := rfl
@[simp] theorem raise_chan (e : VerbError) (s : State) : (raise e s).chan = s.chan := rfl
@[simp] theorem raise_feed (e : VerbError) (s : State) : (raise e s).feed = s.feed := rfl
@[simp] theorem raise_cfg (e : VerbError) (s : State) : (raise e s).host.cfg = s.host.cfg := rfl
@[simp] theorem raise_pending (e : VerbError) (s : State) : (raise e s).host.pending = s.host.pending := rfl
@[simp] theorem raise_call (e : VerbError) (s : State) : (raise e s).host.call = none := rfl
@[simp] theorem raise_result (e : VerbError) (s : State) : (raise e s).host.result = some (.raised e) := rfl

@[simp] theorem Channel.write_input (c : Channel) (b : Byte) : (c.write b).input = c.input := rfl
@[simp] theorem Channel.write_output (c : Channel) (b : Byte) : (c.write b).output = c.output ++ [b] := rfl
@[simp] theorem Channel.write_coming (c : Channel) (b : Byte) : (c.write b).coming = c.coming := rfl
@[simp] theorem Channel.clear_input (c : Channel) : c.clear.input = [] := rfl
@[simp] theorem Channel.clear_output (c : Channel) : c.clear.output = [] := rfl
@[simp] theorem Channel.clear_coming (c : Channel) : c.clear.coming = c.coming := rfl
@[simp] theorem Channel.receive_input (c : Channel) (bs : List Byte) : (c.receive bs).input = c.input ++ bs := rfl
@[simp] theorem Channel.receive_output (c : Channel) (bs : List Byte) : (c.receive bs).output = c.output := rfl
@[simp] theorem Channel.receive_coming (c : Channel) (bs : List Byte) : (c.receive bs).coming = c.coming := rfl
@[simp] theorem Channel.read_output (c : Channel) (b : Byte) : (c.read b).output = c.output := rfl
@[simp] theorem Channel.read_coming (c : Channel) (b : Byte) : (c.read b).coming = c.coming := rfl
/-- Reading the oldest held byte takes it out of the buffer. -/
theorem Channel.read_head (c : Channel) (b : Byte) (rest : List Byte) (h : c.input = b :: rest) :
    (c.read b).input = rest := by simp [Channel.read, h]
/-- Reading a byte when nothing is held leaves the buffer empty. -/
theorem Channel.read_empty (c : Channel) (b : Byte) (h : c.input = []) : c.read b = c := by
  cases c; simp_all [Channel.read]

@[simp] theorem Afu.load_txf (a : Afu) (f : Frame) : (a.load f).txf = f := rfl
@[simp] theorem Afu.load_rxf (a : Afu) (f : Frame) : (a.load f).rxf = a.rxf := rfl
@[simp] theorem Afu.load_txi (a : Afu) (f : Frame) : (a.load f).txi = 0 := rfl
@[simp] theorem Afu.load_rxn (a : Afu) (f : Frame) : (a.load f).rxn = 0 := rfl
@[simp] theorem Afu.load_ph (a : Afu) (f : Frame) : (a.load f).ph = .loaded := rfl
@[simp] theorem Afu.load_res (a : Afu) (f : Frame) : (a.load f).res = .none := rfl
@[simp] theorem Afu.load_err (a : Afu) (f : Frame) : (a.load f).err = 0 := rfl

@[simp] theorem Afu.openExchange_txf (a : Afu) : a.openExchange.txf = a.txf := rfl
@[simp] theorem Afu.openExchange_rxf (a : Afu) : a.openExchange.rxf = a.rxf := rfl
@[simp] theorem Afu.openExchange_txi (a : Afu) : a.openExchange.txi = 0 := rfl
@[simp] theorem Afu.openExchange_rxn (a : Afu) : a.openExchange.rxn = 0 := rfl
@[simp] theorem Afu.openExchange_ph (a : Afu) : a.openExchange.ph = .tx := rfl
@[simp] theorem Afu.openExchange_res (a : Afu) : a.openExchange.res = .none := rfl
@[simp] theorem Afu.openExchange_err (a : Afu) : a.openExchange.err = 0 := rfl

@[simp] theorem Afu.sent_txf (a : Afu) : a.sent.txf = a.txf := rfl
@[simp] theorem Afu.sent_rxf (a : Afu) : a.sent.rxf = a.rxf := rfl
@[simp] theorem Afu.sent_txi (a : Afu) : a.sent.txi = a.txi + 1 := rfl
@[simp] theorem Afu.sent_rxn (a : Afu) : a.sent.rxn = a.rxn := rfl
@[simp] theorem Afu.sent_ph (a : Afu) : a.sent.ph = if a.txi = 7 then .rx else a.ph := rfl
@[simp] theorem Afu.sent_res (a : Afu) : a.sent.res = a.res := rfl
@[simp] theorem Afu.sent_err (a : Afu) : a.sent.err = a.err := rfl

@[simp] theorem Afu.store_txf (a : Afu) (b : Byte) : (a.store b).txf = a.txf := rfl
@[simp] theorem Afu.store_rxf (a : Afu) (b : Byte) : (a.store b).rxf = a.rxf.setIfInBounds a.rxn.toNat b := rfl
@[simp] theorem Afu.store_txi (a : Afu) (b : Byte) : (a.store b).txi = a.txi := rfl
@[simp] theorem Afu.store_rxn (a : Afu) (b : Byte) : (a.store b).rxn = a.rxn + 1 := rfl
@[simp] theorem Afu.store_ph (a : Afu) (b : Byte) : (a.store b).ph = a.ph := rfl
@[simp] theorem Afu.store_res (a : Afu) (b : Byte) : (a.store b).res = a.res := rfl
@[simp] theorem Afu.store_err (a : Afu) (b : Byte) : (a.store b).err = a.err := rfl

@[simp] theorem Afu.conclude_txf (a : Afu) (r : Res × Byte) : (a.conclude r).txf = a.txf := rfl
@[simp] theorem Afu.conclude_rxf (a : Afu) (r : Res × Byte) : (a.conclude r).rxf = a.rxf := rfl
@[simp] theorem Afu.conclude_txi (a : Afu) (r : Res × Byte) : (a.conclude r).txi = a.txi := rfl
@[simp] theorem Afu.conclude_rxn (a : Afu) (r : Res × Byte) : (a.conclude r).rxn = a.rxn := rfl
@[simp] theorem Afu.conclude_ph (a : Afu) (r : Res × Byte) : (a.conclude r).ph = .done := rfl
@[simp] theorem Afu.conclude_res (a : Afu) (r : Res × Byte) : (a.conclude r).res = r.1 := rfl
@[simp] theorem Afu.conclude_err (a : Afu) (r : Res × Byte) : (a.conclude r).err = r.2 := rfl

end Sys2Proof.Machine
end

