-- ==== Sys2Proof/Laws/Ops.lean ====
section
/-! SUPPORT. One lemma per shared operation that says everything it can do. -/

namespace Sys2Proof.Machine

/-- BUILD is refused, or loads the request; nothing else. -/
theorem buildStep_cases (u c p : Byte) (d : Half) (s : State) :
    ((s.afu.ph = .tx ∨ s.afu.ph = .rx) ∧ buildStep u c p d s = refuse s) ∨
    (s.afu.ph ≠ .tx ∧ s.afu.ph ≠ .rx ∧
      buildStep u c p d s = { s with afu := s.afu.load (build u c p d), ports := Ports.idle }) := by
  unfold buildStep
  split
  · exact .inl ⟨‹_›, rfl⟩
  · rename_i h
    rw [not_or] at h
    exact .inr ⟨h.1, h.2, rfl⟩

/-- START opens the exchange from LOADED, or is refused. -/
theorem startStep_cases (s : State) :
    (s.afu.ph = .loaded ∧ startStep s =
      { s with afu := s.afu.openExchange, chan := s.chan.clear, ports := { Ports.idle with flush := true } }) ∨
    (s.afu.ph ≠ .loaded ∧ startStep s = refuse s) := by
  unfold startStep
  split
  · exact .inl ⟨‹_›, rfl⟩
  · exact .inr ⟨‹_›, rfl⟩

/-- A read of the response answers, or is refused. -/
theorem readStep_cases (v : BitVec 24) (s : State) :
    (s.afu.readable = true ∧ readStep v s = answer v s) ∨ (s.afu.readable = false ∧ readStep v s = refuse s) := by
  unfold readStep
  cases h : s.afu.readable <;> simp

theorem txEnabled_iff (a : Afu) : a.txEnabled = true ↔ a.ph = .tx ∧ a.txi.toNat < 8 := by
  simp [Afu.txEnabled]

theorem rxEnabled_iff (a : Afu) : a.rxEnabled = true ↔ a.ph = .rx ∧ a.rxn.toNat < 8 := by
  simp [Afu.rxEnabled]

theorem readable_iff (a : Afu) : a.readable = true ↔ a.ph = .done ∧ a.res = .ok := by
  simp [Afu.readable]

theorem succ_toNat (n : BitVec 4) (h : n.toNat < 8) : (n + 1).toNat = n.toNat + 1 := by
  simp [BitVec.toNat_add]
  omega

/-- The byte TXB emits is the one at offset `TXI`. -/
theorem txNext_eq (a : Afu) (h : a.txi.toNat < 8) : a.txNext = a.txf[a.txi.toNat] := by
  simp [Afu.txNext, h]

/-- The bytes collected after one RXB are those before and the new one. -/
theorem store_memRead (a : Afu) (b : Byte) (h : a.rxn.toNat < 8) :
    memRead (a.store b).rxf 0 (a.store b).rxn.toNat = memRead a.rxf 0 a.rxn.toNat ++ [b] := by
  simp only [memRead_zero, Afu.store_rxf, Afu.store_rxn, succ_toNat _ h]
  rw [Vector.toList_setIfInBounds, List.take_add_one, List.take_set_of_le (by omega)]
  simp [h]

/-- The bytes of a frame after one TXB are those before and the one emitted. -/
theorem take_txNext (a : Afu) (h : a.txi.toNat < 8) :
    a.txf.toList.take a.sent.txi.toNat = a.txf.toList.take a.txi.toNat ++ [a.txNext] := by
  rw [Afu.sent_txi, succ_toNat _ h, List.take_add_one, Afu.txNext]
  simp [h]

end Sys2Proof.Machine
end

