-- ==== Sys2Proof/Laws/Agents.lean ====
section
/-! SUPPORT. What the host's own turn and a step can do, and what the AFU and the CHANNEL do when left to themselves: the whole
transmission, the whole collection. -/

namespace Sys2Proof.Machine

/-- The host's own turn is the next operation of the verb it is in, where that can go on, or begins the oldest waiting call; there is
none in TX and RX. -/
theorem hostTurn_cases {s t : State} (h : hostTurn s = some t) :
    s.afu.ph ≠ .tx ∧ s.afu.ph ≠ .rx ∧
    ((∃ c, s.host.call = some c ∧ c.due s.afu = true ∧ t = hostOp c s) ∨
     (∃ v rest, s.host.call = none ∧ s.host.pending = v :: rest ∧
        t = beginVerb v { s with host := { s.host with pending := rest } })) := by
  unfold hostTurn at h
  split at h
  · cases h
  rename_i hp
  rw [not_or] at hp
  refine ⟨hp.1, hp.2, ?_⟩
  split at h
  · split at h <;> cases h
    exact .inl ⟨_, ‹_›, ‹_›, rfl⟩
  · cases h
    exact .inr ⟨_, _, ‹_›, ‹_›, rfl⟩
  · cases h

theorem hostTurn_busy (s : State) (h : s.afu.ph = .tx ∨ s.afu.ph = .rx) : hostTurn s = none := by
  simp [hostTurn, h]

theorem hostTurn_due (s : State) (c : CallState) (h₁ : s.afu.ph ≠ .tx) (h₂ : s.afu.ph ≠ .rx)
    (hc : s.host.call = some c) (hd : c.due s.afu = true) : hostTurn s = some (hostOp c s) := by
  simp [hostTurn, h₁, h₂, hc, hd]

theorem hostTurn_begin (s : State) (v : VerbCall) (rest : List VerbCall) (h₁ : s.afu.ph ≠ .tx) (h₂ : s.afu.ph ≠ .rx)
    (hc : s.host.call = none) (hp : s.host.pending = v :: rest) :
    hostTurn s = some (beginVerb v { s with host := { s.host with pending := rest } }) := by
  simp [hostTurn, h₁, h₂, hc, hp]

/-- A host with no verb under way and no call waiting has no turn of its own. -/
theorem hostTurn_free (s : State) (hc : s.host.call = none) (hp : s.host.pending = []) : hostTurn s = none := by
  simp [hostTurn, hc, hp]

/-- A step is the host's own turn, or takes an input; the reset input does not wait for the turn. -/
theorem step_cases (s : State) :
    (∃ t, hostTurn s = some t ∧ s.feed.head? ≠ some .resetInput ∧ step s = .next t) ∨
    ((hostTurn s = none ∨ s.feed.head? = some .resetInput) ∧ step s = takeInput s) := by
  unfold step
  split
  · exact .inr ⟨.inr ‹_›, rfl⟩
  split
  · exact .inl ⟨_, ‹_›, ‹_›, rfl⟩
  · exact .inr ⟨.inl ‹_›, rfl⟩

theorem step_noTurn (s : State) (h : hostTurn s = none) : step s = takeInput s := by simp [step, h]

theorem step_turn (s t : State) (h : hostTurn s = some t) (hf : s.feed.head? ≠ some .resetInput) : step s = .next t := by
  simp [step, h, hf]

/-- Left alone while it sends or collects, the machine takes its own step. -/
theorem step_busy (s : State) (h : s.afu.ph = .tx ∨ s.afu.ph = .rx) (hf : s.feed = []) : step s = .next (ownStep s) := by
  rw [step_noTurn s (hostTurn_busy s h), takeInput, hf]

/-- Left alone, the machine takes the move of the AFU or the CHANNEL that is enabled. -/
theorem step_move {s t : State} (h : s.afu.ph = .tx ∨ s.afu.ph = .rx) (hf : s.feed = []) (hm : ownMove s = some t) :
    step s = .next t := by
  rw [step_busy s h hf, ownStep, hm]

theorem steps_succ (n : Nat) {s t : State} (h : step s = .next t) : steps (n + 1) s = steps n t := by
  have h' : Sys2Proof.core.step s = .next t := h
  simp only [steps, Host.Core.run, h']
  rfl

theorem steps_move (n : Nat) {s t : State} (h : s.afu.ph = .tx ∨ s.afu.ph = .rx) (hf : s.feed = [])
    (hm : ownMove s = some t) : steps (n + 1) s = steps n t :=
  steps_succ n (step_move h hf hm)

/-- Outside TX and RX neither the AFU nor the CHANNEL can move (R32). -/
theorem ownMove_none (s : State) (h₁ : s.afu.ph ≠ .tx) (h₂ : s.afu.ph ≠ .rx) : ownMove s = none := by
  simp [ownMove, Afu.txEnabled, Afu.rxEnabled, h₁, h₂]

theorem ownMove_tx (s : State) (h : s.afu.ph = .tx) (hi : s.afu.txi.toNat < 8) : ownMove s = some (txbStep s) := by
  simp [ownMove, Afu.txEnabled, h, hi]

theorem ownMove_full (s : State) (h : s.afu.ph = .rx) (hn : 8 ≤ s.afu.rxn.toNat) :
    ownMove s = some (rxendStep s) := by
  simp [ownMove, Afu.txEnabled, Afu.rxEnabled, h]
  omega

theorem ownMove_rx (s : State) (h : s.afu.ph = .rx) (hn : s.afu.rxn.toNat < 8) : ownMove s = channelMove s := by
  simp [ownMove, Afu.txEnabled, Afu.rxEnabled, h, hn]

/-- The state after the rest of a transmission: the remaining bytes are on the wire, the block collects. -/
def transmitted (s : State) : State :=
  { s with
    afu := { s.afu with txi := 8, ph := .rx }
    chan := { s.chan with output := s.chan.output ++ s.afu.txf.toList.drop s.afu.txi.toNat }
    ports := { Ports.idle with txByte := s.afu.txf[7] } }

/-- The eighth TXB ends the transmission. -/
theorem transmitted_last (s : State) (hn : s.afu.txi.toNat = 7) : txbStep s = transmitted s := by
  have hi : s.afu.txi = 7 := BitVec.eq_of_toNat_eq (by simpa using hn)
  simp only [txbStep, transmitted, Channel.write, txNext_eq s.afu (by omega), hi, Afu.sent]
  rw [frame_toList]
  simp

/-- An earlier TXB stays in TX, counts, and leaves the same transmission to be ended. -/
theorem transmitted_more (s : State) (h : s.afu.ph = .tx) (hn : s.afu.txi.toNat < 7) :
    (txbStep s).afu.ph = .tx ∧ (txbStep s).afu.txi.toNat = s.afu.txi.toNat + 1 ∧
      transmitted (txbStep s) = transmitted s := by
  have hne : s.afu.txi ≠ 7#4 := fun e => by simp only [e, BitVec.toNat_ofNat] at hn; omega
  have hlt : s.afu.txi.toNat < 8 := by omega
  refine ⟨by simp [txbStep, hne, h], by simp only [txbStep, Afu.sent_txi, succ_toNat _ hlt], ?_⟩
  simp only [txbStep, transmitted, Channel.write, txNext_eq s.afu hlt, succ_toNat _ hlt, List.append_assoc, Afu.sent]
  congr 3
  rw [List.drop_eq_getElem_cons (l := s.afu.txf.toList) (i := s.afu.txi.toNat) (by simpa using hlt)]
  simp

/-- The AFU's remaining TXB steps, one after the other (R98). -/
theorem steps_transmit (n m : Nat) (s : State) (h : s.afu.ph = .tx) (hf : s.feed = [])
    (hn : s.afu.txi.toNat + (n + 1) = 8) : steps (n + 1 + m) s = steps m (transmitted s) := by
  induction n generalizing s with
  | zero =>
    rw [show 0 + 1 + m = m + 1 by omega, steps_move m (.inl h) hf (ownMove_tx s h (by omega)),
      transmitted_last s (by omega)]
  | succ n ih =>
    obtain ⟨h₁, h₂, h₃⟩ := transmitted_more s h (by omega)
    rw [show n + 1 + 1 + m = n + 1 + m + 1 by omega, steps_move _ (.inl h) hf (ownMove_tx s h (by omega)),
      ih (txbStep s) h₁ hf (by omega), h₃]

/-- The state after the channel delivered the bytes `a`, one RXB each, of which the plan goes on with `rest` (R110). -/
theorem steps_receive (a : List Byte) (s : State) (rest : List ChanMove) (h : s.afu.ph = .rx) (hf : s.feed = [])
    (hn : s.afu.rxn.toNat + a.length ≤ 8) (hin : s.chan.input = [])
    (hc : s.chan.coming = a.map ChanMove.byte ++ rest) :
    ∃ t, (∀ m, steps (a.length + m) s = steps m t) ∧ t.afu.ph = .rx ∧ t.afu.rxn.toNat = s.afu.rxn.toNat + a.length ∧
      memRead t.afu.rxf 0 t.afu.rxn.toNat = memRead s.afu.rxf 0 s.afu.rxn.toNat ++ a ∧
      t.afu.txf = s.afu.txf ∧ t.afu.txi = s.afu.txi ∧
      t.chan = { s.chan with coming := rest } ∧ t.host = s.host ∧ t.feed = [] := by
  induction a generalizing s with
  | nil =>
    refine ⟨s, by simp, h, by simp, by simp, rfl, rfl, ?_, rfl, hf⟩
    simp only [List.map_nil, List.nil_append] at hc
    rw [← hc]
  | cons b a ih =>
    simp only [List.length_cons] at hn ⊢
    have hlt : s.afu.rxn.toNat < 8 := by omega
    have hmove : ownMove s =
        some (rxbStep b { s with chan := { s.chan with coming := a.map ChanMove.byte ++ rest } }) := by
      rw [ownMove_rx s h hlt, channelMove, hin, hc]
      rfl
    obtain ⟨t, h₁, h₂, h₃, h₄, h₅, h₆, h₇, h₈, h₉⟩ :=
      ih (rxbStep b { s with chan := { s.chan with coming := a.map ChanMove.byte ++ rest } })
        (by simpa [rxbStep] using h) hf (by simp only [rxbStep, Afu.store_rxn, succ_toNat _ hlt]; omega)
        (by simp [rxbStep, Channel.read, hin]) (by simp [rxbStep])
    refine ⟨t, ?_, h₂, ?_, ?_, by simpa [rxbStep] using h₅, by simpa [rxbStep] using h₆, ?_, ?_, h₉⟩
    · intro m
      rw [show a.length + 1 + m = a.length + m + 1 by omega, steps_move _ (.inr h) hf hmove, h₁]
    · rw [h₃]; simp only [rxbStep, Afu.store_rxn, succ_toNat _ hlt]; omega
    · rw [h₄]
      show memRead (s.afu.store b).rxf 0 (s.afu.store b).rxn.toNat ++ a = _
      rw [store_memRead _ _ hlt]; simp
    · rw [h₇]; simp [rxbStep, Channel.read, hin]
    · rw [h₈]; rfl

/-- The whole collection: the bytes of the plan, then the end that eight bytes force or the channel chooses (R111, R112). -/
theorem steps_collect (a : List Byte) (s : State) (rest : List ChanMove) (h : s.afu.ph = .rx) (hf : s.feed = [])
    (hn : s.afu.rxn = 0) (hin : s.chan.input = []) (hc : Delivers s.chan.coming a rest) :
    ∃ t, (∀ m, steps (a.length + 1 + m) s = steps m t) ∧ t.afu.ph = .done ∧ t.afu.rxn.toNat = a.length ∧
      memRead t.afu.rxf 0 a.length = a ∧ t.afu.txf = s.afu.txf ∧ t.afu.txi = s.afu.txi ∧
      (t.afu.res, t.afu.err) = validate s.afu.txf a ∧
      t.chan = { s.chan with coming := rest } ∧ t.host = s.host ∧ t.feed = [] := by
  have finish : ∀ r u, r.afu.ph = .rx → r.feed = [] → ownMove r = some (rxendStep u) → u.afu = r.afu →
      r.afu.rxn.toNat = a.length → memRead r.afu.rxf 0 r.afu.rxn.toNat = a → r.afu.txf = s.afu.txf →
      r.afu.txi = s.afu.txi → u.chan = { s.chan with coming := rest } → u.host = s.host → u.feed = [] →
      ∃ t, (∀ m, steps (m + 1) r = steps m t) ∧ t.afu.ph = .done ∧ t.afu.rxn.toNat = a.length ∧
      memRead t.afu.rxf 0 a.length = a ∧ t.afu.txf = s.afu.txf ∧ t.afu.txi = s.afu.txi ∧
      (t.afu.res, t.afu.err) = validate s.afu.txf a ∧
      t.chan = { s.chan with coming := rest } ∧ t.host = s.host ∧ t.feed = [] := by
    intro r u hr hrf hm hu hrn hmem htxf htxi hch hh huf
    refine ⟨rxendStep u, fun m => steps_move m (.inr hr) hrf hm, rfl, ?_, ?_, ?_, ?_, ?_, hch, hh, huf⟩
    · simp [rxendStep, Afu.collected, hu, hrn]
    · rw [hrn] at hmem; simp [rxendStep, Afu.collected, hu, hmem]
    · simp [rxendStep, Afu.collected, hu, htxf]
    · simp [rxendStep, Afu.collected, hu, htxi]
    · simp [rxendStep, Afu.collected, hu, hmem, htxf]
  rcases hc with ⟨hl, hc⟩ | ⟨hl, hc⟩
  · obtain ⟨r, h₁, h₂, h₃, h₄, h₅, h₆, h₇, h₈, h₉⟩ :=
      steps_receive a s rest h hf (by simp [hn, hl]) hin hc
    have e : ∀ m, steps (a.length + 1 + m) s = steps (m + 1) r := fun m => by
      rw [Nat.add_assoc, Nat.add_comm 1 m, h₁]
    simp only [e]
    simp only [hn] at h₃ h₄
    exact finish r r h₂ h₉ (ownMove_full r h₂ (by simp [h₃, hl])) rfl (by simpa using h₃)
      (by simpa [memRead] using h₄) h₅ h₆ h₇ h₈ h₉
  · obtain ⟨r, h₁, h₂, h₃, h₄, h₅, h₆, h₇, h₈, h₉⟩ :=
      steps_receive a s (.close :: rest) h hf (by simp only [hn]; simp; omega) hin hc
    have e : ∀ m, steps (a.length + 1 + m) s = steps (m + 1) r := fun m => by
      rw [Nat.add_assoc, Nat.add_comm 1 m, h₁]
    simp only [e]
    simp only [hn] at h₃ h₄
    have h₃' : r.afu.rxn.toNat = a.length := by simpa using h₃
    refine finish r { r with chan := { r.chan with coming := rest } } h₂ h₉ ?_ rfl h₃'
      (by simpa [memRead] using h₄) h₅ h₆ (by simp [h₇]) h₈ h₉
    rw [ownMove_rx r h₂ (by omega), channelMove, h₇]
    simp [hin]

end Sys2Proof.Machine
end

