-- ==== Sys2Proof/Laws/Verbs.lean ====
section
/-! SUPPORT. What a verb's exchange and its decode do, step by step to the result, and what a call can do. -/

namespace Sys2Proof.Machine

/-- A byte of the buffer, by the bytes collected. -/
theorem rxf_of_memRead (f : Frame) (a : List Byte) (h : memRead f 0 a.length = a) (hl : a.length = 8) :
    f.toList = a := by
  rw [hl, memRead_all] at h
  exact h

/-- The flag of SIGCMP read back from `out` (R126). -/
theorem flagWord_eq_one (b : Bool) : (flagWord b == 1#24) = b := by cases b <;> rfl

/-- A look at STATUS waits on, or in DONE returns, goes on to the decode, or raises, as `RES` says. -/
theorem look_cases (k : Reading) (s : State) :
    ((s.afu.ph ≠ .done ∨ s.afu.res = .none) ∧ look k s = goOn (.waiting k) (getstatStep s)) ∨
    (s.afu.ph = .done ∧ s.afu.res = .ok ∧ k = .nothing ∧ look k s = giveBack .done (getstatStep s)) ∨
    (s.afu.ph = .done ∧ s.afu.res = .ok ∧ k ≠ .nothing ∧ look k s = goOn (.decoding k []) (getstatStep s)) ∨
    (s.afu.ph = .done ∧ s.afu.res = .incomplete ∧ look k s = raise .incompleteAnswer (getstatStep s)) ∨
    (s.afu.ph = .done ∧ s.afu.res = .checksum ∧ look k s = raise .checksumMismatch (getstatStep s)) ∨
    (s.afu.ph = .done ∧ s.afu.res = .deverr ∧ look k s = raise (.deviceError s.afu.err) (getstatStep s)) := by
  by_cases hp : s.afu.ph = .done
  · cases hr : s.afu.res <;> by_cases hk : k = .nothing <;> simp [look, getstatStep, hp, hr, hk]
  · simp [look, getstatStep, hp]

/-- What the waiting host does in DONE, when the bytes collected are `a` and the outcome is their validation: one look, and after a
good validation the reads of its decode; then it has its result, and block, channel, inputs and waiting calls are as they were. -/
theorem steps_answer (k : Reading) (s : State) (a : List Byte) (hc : s.host.call = some (.waiting k)) (hp : s.afu.ph = .done)
    (hf : s.feed.head? ≠ some .resetInput) (hm : memRead s.afu.rxf 0 a.length = a)
    (hv : (s.afu.res, s.afu.err) = validate s.afu.txf a) :
    ∃ n ≤ 4, ∃ t, (∀ m, steps (n + m) s = steps m t) ∧ t.afu = s.afu ∧ t.chan = s.chan ∧ t.feed = s.feed ∧
      t.host = { cfg := s.host.cfg, call := none, pending := s.host.pending, result := some (replyResult k s.afu.txf a) } := by
  have hres : s.afu.res = (validate s.afu.txf a).1 := by rw [← hv]
  have herr : s.afu.err = (validate s.afu.txf a).2 := by rw [← hv]
  -- one turn in DONE, and its `n` successors
  have turn : ∀ (c : CallState) (r : State), r.afu.ph = .done → r.host.call = some c → c.due r.afu = true →
      r.feed = s.feed → ∀ m, steps (m + 1) r = steps m (hostOp c r) := fun c r h₁ h₂ h₃ h₄ m =>
    steps_succ m (step_turn _ _ (hostTurn_due r c (by simp [h₁]) (by simp [h₁]) h₂ h₃) (h₄ ▸ hf))
  have first := turn (.waiting k) s hp hc (by simp [CallState.due, hp]) rfl
  have raised : ∀ e, look k s = raise e (getstatStep s) → replyResult k s.afu.txf a = .raised e →
      ∃ n ≤ 4, ∃ t, (∀ m, steps (n + m) s = steps m t) ∧ t.afu = s.afu ∧ t.chan = s.chan ∧ t.feed = s.feed ∧
      t.host = { cfg := s.host.cfg, call := none, pending := s.host.pending, result := some (replyResult k s.afu.txf a) } := by
    intro e he hr
    refine ⟨1, by omega, raise e (getstatStep s), fun m => ?_, rfl, rfl, rfl, by rw [hr]; rfl⟩
    rw [Nat.add_comm, first m]
    show steps m (look k s) = _
    rw [he]
  rcases validate_cases s.afu.txf a with ⟨_, e⟩ | ⟨_, _, e⟩ | ⟨_, _, _, e⟩ | ⟨hl, _, _, e⟩
  · rw [e] at hres
    exact raised .incompleteAnswer (by simp [look, getstatStep, hp, hres]) (by simp [replyResult, e])
  · rw [e] at hres
    exact raised .checksumMismatch (by simp [look, getstatStep, hp, hres]) (by simp [replyResult, e])
  · rw [e] at hres herr
    exact raised (.deviceError s.afu.err) (by simp [look, getstatStep, hp, hres]) (by simp [replyResult, e, herr])
  · rw [e] at hres
    have hr : s.afu.readable = true := (readable_iff _).2 ⟨hp, hres⟩
    have hb : ∀ i (hi : i < 8), a[i]?.getD 0#8 = s.afu.rxf[i] := by
      intro i hi
      rw [← rxf_of_memRead _ _ hm hl]
      simp [hi]
    -- the look decides for the decode
    have good : k ≠ .nothing → look k s = goOn (.decoding k []) (getstatStep s) := by
      intro hk; simp [look, getstatStep, hp, hres, hk]
    have reads : ∀ (bytes : List Byte) (r : State), r.afu = s.afu → r.host.call = some (.decoding k bytes) →
        r.feed = s.feed → ∀ m, steps (m + 1) r = steps m (readReply k bytes r) := by
      intro bytes r h₁ h₂ h₃ m
      rw [turn _ r (by rw [h₁, hp]) h₂ (by simp [CallState.due, h₁, hr]) h₃ m]
      simp [hostOp, h₁, hr]
    cases k with
    | nothing =>
      refine ⟨1, by omega, giveBack .done (getstatStep s), fun m => ?_, rfl, rfl, rfl, by simp [giveBack, getstatStep, replyResult, e]⟩
      rw [Nat.add_comm, first m]
      simp [hostOp, look, getstatStep, hp, hres]
    | data =>
      refine ⟨2, by omega, readReply .data [] (goOn (.decoding .data []) (getstatStep s)), fun m => ?_, ?_, ?_, ?_, ?_⟩
      · rw [show 2 + m = m + 1 + 1 by omega, first, show hostOp (.waiting .data) s = look .data s from rfl, good (by simp)]
        exact reads [] (goOn (.decoding .data []) (getstatStep s)) rfl rfl rfl m
      all_goals simp [readReply, goOn, getstatStep, getdataStep, readStep, hr, giveBack, replyResult, e, data16,
        hb 4 (by omega), hb 5 (by omega), BitVec.setWidth_setWidth_of_le]
    | signature =>
      refine ⟨2, by omega, readReply .signature [] (goOn (.decoding .signature []) (getstatStep s)), fun m => ?_, ?_, ?_, ?_, ?_⟩
      · rw [show 2 + m = m + 1 + 1 by omega, first, show hostOp (.waiting .signature) s = look .signature s from rfl,
          good (by simp)]
        exact reads [] (goOn (.decoding .signature []) (getstatStep s)) rfl rfl rfl m
      all_goals simp [readReply, goOn, getstatStep, sigcmpStep, readStep, hr, giveBack, replyResult, e, sigmatch,
        flagWord_eq_one, hb 2 (by omega), hb 3 (by omega), hb 4 (by omega)]
    | flags =>
      have h4 : readReply .flags [] (goOn (.decoding .flags []) (getstatStep s)) =
          goOn (.decoding .flags [s.afu.rxf[4]]) (answer (s.afu.rxf[4].setWidth 24) s) := by
        simp [readReply, goOn, getstatStep, getbStep, readStep, hr, answer, outByte, BitVec.setWidth_setWidth_of_le]
      have h5 : readReply .flags [s.afu.rxf[4]] (goOn (.decoding .flags [s.afu.rxf[4]]) (answer (s.afu.rxf[4].setWidth 24) s)) =
          goOn (.decoding .flags [s.afu.rxf[4], s.afu.rxf[5]]) (answer (s.afu.rxf[5].setWidth 24) s) := by
        simp [readReply, goOn, getbStep, readStep, hr, answer, outByte, BitVec.setWidth_setWidth_of_le]
      refine ⟨4, by omega, readReply .flags [s.afu.rxf[4], s.afu.rxf[5]]
        (goOn (.decoding .flags [s.afu.rxf[4], s.afu.rxf[5]]) (answer (s.afu.rxf[5].setWidth 24) s)), fun m => ?_, ?_, ?_, ?_, ?_⟩
      · rw [show 4 + m = m + 1 + 1 + 1 + 1 by omega, first, show hostOp (.waiting .flags) s = look .flags s from rfl,
          good (by simp), reads [] (goOn (.decoding .flags []) (getstatStep s)) rfl rfl rfl, h4,
          reads [s.afu.rxf[4]] (goOn (.decoding .flags [s.afu.rxf[4]]) (answer (s.afu.rxf[4].setWidth 24) s)) rfl rfl rfl, h5,
          reads [s.afu.rxf[4], s.afu.rxf[5]]
            (goOn (.decoding .flags [s.afu.rxf[4], s.afu.rxf[5]]) (answer (s.afu.rxf[5].setWidth 24) s)) rfl rfl rfl]
      all_goals simp [readReply, goOn, getbStep, readStep, hr, giveBack, replyResult, e, outByte,
        hb 4 (by omega), hb 5 (by omega), hb 6 (by omega), BitVec.setWidth_setWidth_of_le]

/-- From the built request to the open collection: START, and the eight TXB (R97, R98). -/
theorem steps_send (k : Reading) (s : State) (hp : s.afu.ph = .loaded) (hc : s.host.call = some (.built k))
    (hf : s.feed = []) :
    ∃ t, (∀ m, steps (9 + m) s = steps m t) ∧ t.afu.ph = .rx ∧ t.afu.txf = s.afu.txf ∧ t.afu.txi = 8 ∧ t.afu.rxn = 0 ∧
      t.chan = { input := [], output := s.afu.txf.toList, coming := s.chan.coming } ∧ t.feed = [] ∧
      t.host = { cfg := s.host.cfg, call := some (.waiting k), pending := s.host.pending, result := none } := by
  rcases startStep_cases s with ⟨_, e⟩ | ⟨h, _⟩
  swap
  · exact absurd hp h
  refine ⟨transmitted (goOn (.waiting k) (startStep s)), fun m => ?_, ?_⟩
  · rw [show 9 + m = 7 + 1 + m + 1 by omega, steps_succ _ (step_turn _ _
        (hostTurn_due s _ (by simp [hp]) (by simp [hp]) hc rfl) (by simp [hf]))]
    exact steps_transmit 7 m (goOn (.waiting k) (startStep s)) (by rw [e]; rfl) (by rw [e]; exact hf) (by rw [e]; rfl)
  · rw [e]
    exact ⟨rfl, rfl, rfl, rfl, by simp [transmitted, goOn, Channel.clear], hf, rfl⟩

/-- A verb from its built request to its result, when the channel ends the collection (R100, R135). -/
theorem steps_exchange (k : Reading) (s : State) (a : List Byte) (rest : List ChanMove) (hp : s.afu.ph = .loaded)
    (hc : s.host.call = some (.built k)) (hf : s.feed = []) (hd : Delivers s.chan.coming a rest) :
    ∃ n ≤ 22, ∃ t, steps n s = .next t ∧ Exchanged s t s.afu.txf a rest ∧
      t.host = { cfg := s.host.cfg, call := none, pending := s.host.pending, result := some (replyResult k s.afu.txf a) } := by
  have hl : a.length ≤ 8 := by rcases hd with ⟨h, _⟩ | ⟨h, _⟩ <;> omega
  obtain ⟨r, r₁, r₂, r₃, r₄, r₅, r₆, r₇, r₈⟩ := steps_send k s hp hc hf
  obtain ⟨u, u₁, u₂, u₃, u₄, u₅, u₆, u₇, u₈, u₉, u₁₀⟩ :=
    steps_collect a r rest r₂ r₇ r₅ (by rw [r₆]) (by rw [r₆]; exact hd)
  obtain ⟨n, hn, t, t₁, t₂, t₃, t₄, t₅⟩ := steps_answer k u a (by rw [u₉, r₈]) u₂ (by simp [u₁₀]) u₄ (by rw [u₅, u₇])
  refine ⟨9 + (a.length + 1 + n), by omega, t, by rw [r₁, u₁]; exact t₁ 0, ⟨?_, ?_, ?_, ?_, ?_, ?_, ?_, ?_, ?_⟩, ?_⟩
  · rw [t₂, u₅, r₃]
  · rw [t₂, u₆, r₄]
  · rw [t₂, u₃]
  · rw [t₂, u₄]
  · rw [t₂, u₂]
  · rw [t₂, u₇, r₃]
  · rw [t₃, u₈, r₆]
  · rw [t₅, u₉, r₈]
  · rw [t₄, u₁₀, hf]
  · rw [t₅, u₉, r₈, u₅, r₃]

/-- A verb with its request begins the exchange of it; the others raise with no operation of the block (R138, R139). Which of the two, and the
request, depend on the host alone. -/
theorem beginVerb_cases (v : VerbCall) {s t : State} (h : s.host = t.host) :
    (∃ k cmd par d, beginVerb v s = xchg k cmd par d s ∧ beginVerb v t = xchg k cmd par d t) ∨
    (∃ e, beginVerb v s = raise e (idle s) ∧ beginVerb v t = raise e (idle t)) := by
  cases v with
  | getParam name =>
    simp only [beginVerb, beginGetParam, withDescriptor, h]
    split
    · exact .inr ⟨_, rfl, rfl⟩
    · exact .inl ⟨_, _, _, _, rfl, rfl⟩
  | setParam name value =>
    simp only [beginVerb, beginSetParam, withDescriptor, h]
    split
    · exact .inr ⟨_, rfl, rfl⟩
    split
    · exact .inl ⟨_, _, _, _, rfl, rfl⟩
    · exact .inr ⟨_, rfl, rfl⟩
  | result name =>
    simp only [beginVerb, beginResult, withDescriptor, h]
    split
    · exact .inr ⟨_, rfl, rfl⟩
    · exact .inl ⟨_, _, _, _, rfl, rfl⟩
  | move speed => exact .inl ⟨_, _, _, _, rfl, by simp only [beginVerb, beginMove, h]⟩
  | state => exact .inl ⟨_, _, _, _, rfl, by simp only [beginVerb, beginState, h]⟩
  | reset => exact .inl ⟨_, _, _, _, rfl, by simp only [beginVerb, beginReset, h]⟩
  | echo => exact .inl ⟨_, _, _, _, rfl, by simp only [beginVerb, beginEcho, h]⟩
  | stop => exact .inl ⟨_, _, _, _, rfl, by simp only [beginVerb, beginStop, h]⟩
  | enableTracking => exact .inl ⟨_, _, _, _, rfl, by simp only [beginVerb, beginEnableTracking, h]⟩

/-- A verb's instruction is a call of it. -/
theorem exec_instr (v : VerbCall) (s : State) : exec v.instr s = call v s := by cases v <;> rfl

/-- The verbs are the calls. -/
theorem isVerb_iff (i : Instr) : isVerb i = true ↔ ∃ v : VerbCall, i = v.instr := by
  constructor
  · intro h
    cases i <;> simp only [isVerb, Bool.false_eq_true] at h
    case getParam name => exact ⟨.getParam name, rfl⟩
    case setParam name value => exact ⟨.setParam name value, rfl⟩
    case move speed => exact ⟨.move speed, rfl⟩
    case state => exact ⟨.state, rfl⟩
    case reset => exact ⟨.reset, rfl⟩
    case echo => exact ⟨.echo, rfl⟩
    case stop => exact ⟨.stop, rfl⟩
    case enableTracking => exact ⟨.enableTracking, rfl⟩
    case result name => exact ⟨.result name, rfl⟩
  · rintro ⟨v, rfl⟩
    cases v <;> rfl

/-- A call begins the verb, or keeps its place behind those already waiting. -/
theorem call_cases (v : VerbCall) (s : State) :
    (s.host.call = none ∧ call v s = .next (beginVerb v s)) ∨
    (s.host.call ≠ none ∧ call v s =
      .next { s with ports := Ports.idle, host := { s.host with pending := s.host.pending ++ [v] } }) := by
  unfold call
  split
  · exact .inl ⟨‹_›, rfl⟩
  · exact .inr ⟨‹_›, rfl⟩

end Sys2Proof.Machine
end

