-- ==== Sys2Proof/Laws/Invariant.lean ====
section
/-! SUPPORT. Every shared operation keeps the invariant of spec/10_state.md R35, one lemma per operation. -/

namespace Sys2Proof.Machine

/-- The invariant reads the block, and the bytes on the wire. -/
theorem State.Inv.of_eq {s t : State} (h : s.Inv) (h₁ : t.afu = s.afu) (h₂ : t.chan.output = s.chan.output) : t.Inv :=
  ⟨h₁ ▸ h.afu, by rw [h₁, h₂]; exact h.wire⟩

theorem refuse_inv {s : State} (h : s.Inv) : (refuse s).Inv := h.of_eq rfl rfl

theorem build_built (u c p : Byte) (d : Half) : BuiltFrame (build u c p d) := by
  refine ⟨rfl, rfl, ?_⟩
  rw [ckvalid_iff, build_toList]
  exact byteSum_append_cksum [u, c, p, 0, hi8 d, lo8 d, 0]

theorem buildStep_inv (u c p : Byte) (d : Half) {s : State} (h : s.Inv) : (buildStep u c p d s).Inv := by
  rcases buildStep_cases u c p d s with ⟨_, e⟩ | ⟨_, _, e⟩ <;> rw [e]
  · exact refuse_inv h
  · refine ⟨⟨?_, ?_, ?_, ?_, ?_, ?_, ?_, ?_, ?_, ?_, ?_, ?_⟩, ?_⟩ <;> simp [build_built]

theorem startStep_inv {s : State} (h : s.Inv) : (startStep s).Inv := by
  rcases startStep_cases s with ⟨hp, e⟩ | ⟨_, e⟩ <;> rw [e]
  · have := h.afu.built (by simp [hp])
    refine ⟨⟨?_, ?_, ?_, ?_, ?_, ?_, ?_, ?_, ?_, ?_, ?_, ?_⟩, ?_⟩ <;> simp [this]
  · exact refuse_inv h

theorem txbStep_inv {s : State} (h : s.Inv) (hp : s.afu.ph = .tx) (hi : s.afu.txi.toNat < 8) : (txbStep s).Inv := by
  obtain ⟨_, hn, hr⟩ := h.afu.tx hp
  have hb := h.afu.built (by simp [hp])
  have he : s.afu.err = 0 := by
    by_contra he
    simp [h.afu.err he] at hr
  have h7 : s.afu.txi ≠ 7#4 → s.afu.txi.toNat < 7 := by
    intro hne
    have : s.afu.txi.toNat ≠ 7 := fun e => hne (BitVec.eq_of_toNat_eq (by simpa using e))
    omega
  have hw : s.chan.output ++ [s.afu.txNext] = s.afu.txf.toList.take s.afu.sent.txi.toNat := by
    rw [h.wire (.inl hp), take_txNext _ hi]
  refine ⟨⟨?_, ?_, ?_, ?_, ?_, ?_, ?_, ?_, ?_, ?_, ?_, ?_⟩, fun _ => hw⟩
  · exact ⟨by rw [show (txbStep s).afu.txi = s.afu.txi + 1 from rfl, succ_toNat _ hi]; omega, by simp [txbStep, hn]⟩
  all_goals by_cases e : s.afu.txi = 7#4
  all_goals simp [txbStep, e, hp, hr, hn, he, hb]
  have := h7 e
  omega

theorem rxbStep_inv (b : Byte) {s : State} (h : s.Inv) (hp : s.afu.ph = .rx) (hn : s.afu.rxn.toNat < 8) :
    (rxbStep b s).Inv := by
  obtain ⟨hi, hr, he⟩ := h.afu.rx hp
  have hb := h.afu.built (by simp [hp])
  have hw := h.wire (.inr (.inl hp))
  refine ⟨⟨?_, ?_, ?_, ?_, ?_, ?_, ?_, ?_, ?_, ?_, ?_, ?_⟩, ?_⟩
  · exact ⟨by simp [rxbStep, hi], by
      rw [show (rxbStep b s).afu.rxn = s.afu.rxn + 1 from rfl, succ_toNat _ hn]; omega⟩
  all_goals simp [rxbStep, hp, hr, hi, he, hb, hw]

theorem rxendStep_inv {s : State} (h : s.Inv) (hp : s.afu.ph = .rx) : (rxendStep s).Inv := by
  obtain ⟨hi, hr, he⟩ := h.afu.rx hp
  have hb := h.afu.built (by simp [hp])
  have hc := h.afu.counters.2
  have hw := h.wire (.inr (.inl hp))
  have hl := memRead_length s.afu.rxf s.afu.rxn.toNat hc
  have h8 : s.afu.rxn.toNat = 8 → s.afu.rxn = 8 := fun e => BitVec.eq_of_toNat_eq (by simpa using e)
  have hm : s.afu.rxn.toNat = 8 → memRead s.afu.rxf 0 s.afu.rxn.toNat = s.afu.rxf.toList := by
    intro e; rw [e, memRead_all]
  have ho : ∀ a : Frame, echoed a.toList = a[1] := by intro a; simp [echoed]
  refine ⟨⟨h.afu.counters, by simp [rxendStep, Afu.collected], by simp [rxendStep, Afu.collected],
    by simp [rxendStep, Afu.collected], by simp [rxendStep, Afu.collected], fun _ => ⟨hi, validate_ne_none _ _⟩,
    fun _ => ?_, fun _ => ?_, fun _ => rfl, ?_, fun _ => hb,
    by simp [rxendStep, Afu.collected, validate_ne_none]⟩, fun _ => hw⟩
  all_goals
    simp only [rxendStep, Afu.collected, Afu.conclude_res, Afu.conclude_rxn, Afu.conclude_rxf, Afu.conclude_txf,
      Afu.conclude_err]
    rcases validate_cases s.afu.txf (memRead s.afu.rxf 0 s.afu.rxn.toNat) with
      ⟨hv, e⟩ | ⟨hv, _, e⟩ | ⟨hv, _, _, e⟩ | ⟨hv, hk, hx, e⟩ <;> rw [e] <;> simp
  all_goals rw [hl] at hv
  · rw [hm hv] at hk hx
    exact ⟨h8 hv, hk, ho _ ▸ hx⟩
  all_goals omega

theorem arriveStep_inv (bs : List Byte) {s : State} (h : s.Inv) : (arriveStep bs s).Inv := h.of_eq rfl rfl

theorem resetStep_inv (s : State) : (resetStep s).Inv := by
  refine ⟨⟨?_, ?_, ?_, ?_, ?_, ?_, ?_, ?_, ?_, ?_, ?_, ?_⟩, ?_⟩ <;> simp [Afu.reset]

/-- The channel's choice while the collection is open keeps the invariant. -/
theorem channelMove_inv {s t : State} (h : s.Inv) (hp : s.afu.ph = .rx) (hn : s.afu.rxn.toNat < 8)
    (ht : channelMove s = some t) : t.Inv := by
  have plan : ∀ c, State.Inv { s with chan := { s.chan with coming := c } } := fun c => h.of_eq rfl rfl
  unfold channelMove at ht
  split at ht <;> cases ht
  · exact rxbStep_inv _ h hp hn
  · exact rxbStep_inv _ (plan _) hp hn
  · exact rxendStep_inv (plan _) hp

theorem ownMove_inv {s t : State} (h : s.Inv) (ht : ownMove s = some t) : t.Inv := by
  unfold ownMove at ht
  split at ht
  · rename_i he
    cases ht
    exact txbStep_inv h ((txEnabled_iff _).1 he).1 ((txEnabled_iff _).1 he).2
  split at ht
  · rename_i he
    exact channelMove_inv h ((rxEnabled_iff _).1 he).1 ((rxEnabled_iff _).1 he).2 ht
  split at ht <;> cases ht
  exact rxendStep_inv h ‹_›

theorem readStep_inv {s : State} (h : s.Inv) (v : BitVec 24) : (readStep v s).Inv := by
  rcases readStep_cases v s with ⟨_, e⟩ | ⟨_, e⟩ <;> rw [e] <;> exact h.of_eq rfl rfl

/-- A look at STATUS leaves block and channel alone. -/
theorem look_same (k : Reading) (s : State) : (look k s).afu = s.afu ∧ (look k s).chan = s.chan := by
  unfold look
  dsimp only
  split
  · split <;> try exact ⟨rfl, rfl⟩
    split <;> exact ⟨rfl, rfl⟩
  · exact ⟨rfl, rfl⟩

/-- A read of the decode leaves block and channel alone. -/
theorem readReply_same (k : Reading) (bytes : List Byte) (s : State) :
    (readReply k bytes s).afu = s.afu ∧ (readReply k bytes s).chan = s.chan := by
  have read : ∀ v, (readStep v s).afu = s.afu ∧ (readStep v s).chan = s.chan := by
    intro v
    rcases readStep_cases v s with ⟨_, e⟩ | ⟨_, e⟩ <;> rw [e] <;> exact ⟨rfl, rfl⟩
  unfold readReply
  split <;> first | exact read _ | exact ⟨rfl, rfl⟩

/-- A verb's operation after BUILD: START, or one that leaves block and channel alone. -/
theorem hostOp_inv (c : CallState) {s : State} (h : s.Inv) : (hostOp c s).Inv := by
  cases c with
  | built k => exact (startStep_inv h).of_eq rfl rfl
  | waiting k => exact h.of_eq (look_same k s).1 (by rw [show hostOp (.waiting k) s = look k s from rfl, (look_same k s).2])
  | decoding k bytes =>
    unfold hostOp
    dsimp only
    split
    · exact h.of_eq (readReply_same k bytes s).1 (by rw [(readReply_same k bytes s).2])
    · exact h.of_eq rfl rfl

theorem xchg_inv (k : Reading) (cmd par : Byte) (d : Half) {s : State} (h : s.Inv) : (xchg k cmd par d s).Inv :=
  (buildStep_inv _ _ _ _ h).of_eq rfl rfl

theorem beginVerb_inv (v : VerbCall) {s : State} (h : s.Inv) : (beginVerb v s).Inv := by
  rcases beginVerb_cases v (rfl : s.host = s.host) with ⟨k, cmd, par, d, e, _⟩ | ⟨e, he, _⟩
  · rw [e]; exact xchg_inv _ _ _ _ h
  · rw [he]; exact h.of_eq rfl rfl

theorem hostTurn_inv {s t : State} (h : s.Inv) (ht : hostTurn s = some t) : t.Inv := by
  obtain ⟨_, _, ⟨c, _, _, rfl⟩ | ⟨v, rest, _, _, rfl⟩⟩ := hostTurn_cases ht
  · exact hostOp_inv c h
  · exact beginVerb_inv v (h.of_eq rfl rfl)

theorem ownStep_inv {s : State} (h : s.Inv) : (ownStep s).Inv := by
  unfold ownStep
  split
  · exact ownMove_inv h ‹_›
  split
  · exact hostOp_inv _ h
  · exact h.of_eq rfl rfl

end Sys2Proof.Machine
end

