-- ==== Sys2Proof/Laws/Agree.lean ====
section
/-! SUPPORT. No shared operation tells apart two states that differ only in buffer bytes no rule reads (spec/10_state.md R35 (8)). -/

namespace Sys2Proof.Machine

/-- Two states of the invariant that agree. -/
structure Twin (s t : State) : Prop where
  left  : s.Inv
  right : t.Inv
  agree : s.Agree t

/-- Steps that leave the block alone and set the rest the same way keep the agreement. -/
theorem State.Agree.of_eq {s t s' t' : State} (h : s.Agree t) (hs : s'.afu = s.afu) (ht : t'.afu = t.afu)
    (hp : s'.ports = t'.ports) (hc : s'.chan = t'.chan) (hh : s'.host = t'.host) (hf : s'.feed = t'.feed) :
    s'.Agree t' :=
  ⟨by rw [hs, ht]; exact h.afu, hp, hc, hh, hf⟩

theorem refuse_agree {s t : State} (h : s.Agree t) : (refuse s).Agree (refuse t) :=
  h.of_eq rfl rfl rfl h.chan h.host h.feed

theorem answer_agree {s t : State} (h : s.Agree t) (v : BitVec 24) : (answer v s).Agree (answer v t) :=
  h.of_eq rfl rfl rfl h.chan h.host h.feed

theorem idle_agree {s t : State} (h : s.Agree t) : (idle s).Agree (idle t) :=
  h.of_eq rfl rfl rfl h.chan h.host h.feed

theorem giveBack_agree {s t : State} (h : s.Agree t) (r : VerbResult) : (giveBack r s).Agree (giveBack r t) :=
  h.of_eq rfl rfl h.ports h.chan (by simp [giveBack, h.host]) h.feed

theorem goOn_agree {s t : State} (h : s.Agree t) (c : CallState) : (goOn c s).Agree (goOn c t) :=
  h.of_eq rfl rfl h.ports h.chan (by simp [goOn, h.host]) h.feed

theorem Afu.Agree.status {a b : Afu} (h : a.Agree b) : a.status = b.status := by
  simp only [Afu.status, h.err, h.txi, h.rxn, h.res, h.ph]

/-- Where a read of the response is enabled, the whole response was collected, so it is the same. -/
theorem Twin.rxf {s t : State} (h : Twin s t) (hr : s.afu.readable = true) : s.afu.rxf = t.afu.rxf := by
  obtain ⟨hp, ho⟩ := (readable_iff _).1 hr
  have hn := (h.left.afu.ok hp ho).1
  have := h.agree.afu.rxf
  rw [← h.agree.afu.rxn, hn, show BitVec.toNat (8 : BitVec 4) = 8 from rfl, memRead_all, memRead_all] at this
  exact frame_ext this

theorem Twin.readable {s t : State} (h : Twin s t) : s.afu.readable = t.afu.readable := by
  simp only [Afu.readable, h.agree.afu.ph, h.agree.afu.res]

theorem readStep_agree {s t : State} (h : Twin s t) (v : Frame → BitVec 24) :
    (readStep (v s.afu.rxf) s).Agree (readStep (v t.afu.rxf) t) := by
  unfold readStep
  rw [← h.readable]
  split
  · rw [h.rxf ‹_›]; exact answer_agree h.agree _
  · exact refuse_agree h.agree

theorem buildStep_agree {s t : State} (h : s.Agree t) (u c p : Byte) (d : Half) :
    (buildStep u c p d s).Agree (buildStep u c p d t) := by
  unfold buildStep
  rw [h.afu.ph]
  split
  · exact refuse_agree h
  · exact ⟨⟨rfl, rfl, rfl, rfl, rfl, fun _ => rfl, by simp [memRead]⟩, rfl, h.chan, h.host, h.feed⟩

theorem startStep_agree {s t : State} (h : s.Agree t) : (startStep s).Agree (startStep t) := by
  unfold startStep
  rw [← h.afu.ph]
  split
  · exact ⟨⟨rfl, rfl, rfl, rfl, rfl, fun _ => h.afu.txf (by simp [*]), by simp [memRead]⟩, rfl,
      by simp [h.chan], h.host, h.feed⟩
  · exact refuse_agree h

theorem txbStep_agree {s t : State} (h : s.Agree t) (hp : s.afu.ph = .tx) : (txbStep s).Agree (txbStep t) := by
  have hf : s.afu.txf = t.afu.txf := h.afu.txf (by simp [hp])
  have hn : s.afu.txNext = t.afu.txNext := by simp only [Afu.txNext, hf, h.afu.txi]
  refine ⟨⟨?_, h.afu.rxn, ?_, h.afu.res, h.afu.err, fun _ => hf, h.afu.rxf⟩, ?_, ?_, h.host, h.feed⟩
  · simp [txbStep, h.afu.txi]
  · simp [txbStep, h.afu.txi, h.afu.ph]
  · simp [txbStep, hn]
  · simp [txbStep, hn, h.chan]

theorem rxbStep_agree (b : Byte) {s t : State} (h : s.Agree t) (hp : s.afu.ph = .rx) (hn : s.afu.rxn.toNat < 8) :
    (rxbStep b s).Agree (rxbStep b t) := by
  refine ⟨⟨h.afu.txi, by simp [rxbStep, h.afu.rxn], h.afu.ph, h.afu.res, h.afu.err,
    fun _ => h.afu.txf (by simp [hp]), ?_⟩, rfl, by simp [rxbStep, h.chan], h.host, h.feed⟩
  show memRead (s.afu.store b).rxf 0 (s.afu.store b).rxn.toNat = memRead (t.afu.store b).rxf 0 (t.afu.store b).rxn.toNat
  rw [store_memRead _ _ hn, store_memRead _ _ (h.afu.rxn ▸ hn), h.afu.rxf]

theorem rxendStep_agree {s t : State} (h : s.Agree t) (hp : s.afu.ph = .rx) : (rxendStep s).Agree (rxendStep t) := by
  have hf : s.afu.txf = t.afu.txf := h.afu.txf (by simp [hp])
  refine ⟨⟨h.afu.txi, h.afu.rxn, rfl, ?_, ?_, fun _ => hf, h.afu.rxf⟩, rfl, h.chan, h.host, h.feed⟩ <;>
    simp [rxendStep, Afu.collected, hf, h.afu.rxf]

theorem arriveStep_agree (bs : List Byte) {s t : State} (h : s.Agree t) : (arriveStep bs s).Agree (arriveStep bs t) :=
  h.of_eq rfl rfl rfl (by simp [h.chan]) h.host h.feed

theorem resetStep_agree {s t : State} (h : s.Agree t) : (resetStep s).Agree (resetStep t) :=
  ⟨⟨rfl, rfl, rfl, rfl, rfl, fun _ => rfl, rfl⟩, rfl, h.chan, by simp [resetStep, h.host], h.feed⟩

/-- The agents' own move is the same move in both. -/
theorem ownMove_agree {s t : State} (h : s.Agree t) :
    (ownMove s = none ∧ ownMove t = none) ∨
      ∃ s' t', ownMove s = some s' ∧ ownMove t = some t' ∧ s'.Agree t' := by
  have plan : ∀ c, State.Agree { s with chan := { s.chan with coming := c } } { t with chan := { t.chan with coming := c } } :=
    fun c => h.of_eq rfl rfl h.ports (by simp [h.chan]) h.host h.feed
  have h₁ : s.afu.txEnabled = t.afu.txEnabled := by simp only [Afu.txEnabled, h.afu.ph, h.afu.txi]
  have h₂ : s.afu.rxEnabled = t.afu.rxEnabled := by simp only [Afu.rxEnabled, h.afu.ph, h.afu.rxn]
  unfold ownMove
  rw [← h₁, ← h₂, ← h.afu.ph]
  split
  · rename_i he
    exact .inr ⟨_, _, rfl, rfl, txbStep_agree h ((txEnabled_iff _).1 he).1⟩
  split
  · rename_i he
    obtain ⟨hp, hn⟩ := (rxEnabled_iff _).1 he
    unfold channelMove
    rw [← h.chan]
    split
    · exact .inr ⟨_, _, rfl, rfl, rxbStep_agree _ h hp hn⟩
    · exact .inr ⟨_, _, rfl, rfl, rxbStep_agree _ (h.chan ▸ plan _) hp hn⟩
    · exact .inr ⟨_, _, rfl, rfl, rxendStep_agree (h.chan ▸ plan _) hp⟩
    · exact .inl ⟨rfl, rfl⟩
  split
  · exact .inr ⟨_, _, rfl, rfl, rxendStep_agree h ‹_›⟩
  · exact .inl ⟨rfl, rfl⟩

theorem getstatStep_twin {s t : State} (h : Twin s t) : Twin (getstatStep s) (getstatStep t) :=
  ⟨h.left.of_eq rfl rfl, h.right.of_eq rfl rfl, by
    unfold getstatStep; rw [h.agree.afu.status]; exact answer_agree h.agree _⟩

theorem readStep_twin {s t : State} (h : Twin s t) (v : Frame → BitVec 24) :
    Twin (readStep (v s.afu.rxf) s) (readStep (v t.afu.rxf) t) :=
  ⟨readStep_inv h.left _, readStep_inv h.right _, readStep_agree h v⟩

theorem getbStep_twin {s t : State} (h : Twin s t) (i : BitVec 3) : Twin (getbStep i s) (getbStep i t) :=
  readStep_twin h fun f => (f[i.toNat]'(by have := i.isLt; omega)).setWidth 24

theorem readReply_agree (k : Reading) (bytes : List Byte) {s t : State} (h : Twin s t) :
    (readReply k bytes s).Agree (readReply k bytes t) := by
  have byte : ∀ i, (getbStep i s).Agree (getbStep i t) ∧ outByte (getbStep i s) = outByte (getbStep i t) := fun i =>
    ⟨(getbStep_twin h i).agree, by rw [outByte, outByte, (getbStep_twin h i).agree.ports]⟩
  unfold readReply
  split
  · have := (readStep_twin h fun f => (data16 f).setWidth 24).agree
    simp only [getdataStep]
    rw [this.ports]
    exact giveBack_agree this _
  · dsimp only
    rw [(byte 4).2]
    exact goOn_agree (byte 4).1 _
  · dsimp only
    rw [(byte 5).2]
    exact goOn_agree (byte 5).1 _
  · dsimp only
    rw [(byte 6).2]
    exact giveBack_agree (byte 6).1 _
  · have := (readStep_twin h fun f => flagWord (sigmatch f)).agree
    simp only [sigcmpStep]
    rw [this.ports]
    exact giveBack_agree this _
  · exact giveBack_agree h.agree _

theorem look_agree (k : Reading) {s t : State} (h : Twin s t) : (look k s).Agree (look k t) := by
  have hg := getstatStep_twin h
  unfold look
  dsimp only
  rw [← hg.agree.afu.ph, ← hg.agree.afu.res, ← hg.agree.afu.err]
  split
  · split
    · split
      · exact giveBack_agree hg.agree _
      · exact goOn_agree hg.agree _
    · exact giveBack_agree hg.agree _
    · exact giveBack_agree hg.agree _
    · exact giveBack_agree hg.agree _
    · exact goOn_agree hg.agree _
  · exact goOn_agree hg.agree _

theorem hostOp_agree (c : CallState) {s t : State} (h : Twin s t) : (hostOp c s).Agree (hostOp c t) := by
  cases c with
  | built k => exact goOn_agree (startStep_agree h.agree) _
  | waiting k => exact look_agree k h
  | decoding k bytes =>
    unfold hostOp
    dsimp only
    rw [← h.readable]
    split
    · exact readReply_agree k bytes h
    · exact idle_agree h.agree

theorem xchg_agree (k : Reading) (cmd par : Byte) (d : Half) {s t : State} (h : s.Agree t) :
    (xchg k cmd par d s).Agree (xchg k cmd par d t) := by
  unfold xchg
  rw [h.host]
  exact goOn_agree (buildStep_agree h _ _ _ _) _

theorem beginVerb_agree (v : VerbCall) {s t : State} (h : s.Agree t) : (beginVerb v s).Agree (beginVerb v t) := by
  rcases beginVerb_cases v h.host with ⟨k, cmd, par, d, e₁, e₂⟩ | ⟨e, e₁, e₂⟩ <;> rw [e₁, e₂]
  · exact xchg_agree k cmd par d h
  · exact giveBack_agree (idle_agree h) _

/-- The verb can go on in both or in neither. -/
theorem due_agree (c : CallState) {s t : State} (h : Twin s t) : c.due s.afu = c.due t.afu := by
  cases c with
  | built k => rfl
  | waiting k => simp only [CallState.due, h.agree.afu.ph]
  | decoding k bytes => exact h.readable

/-- The host has a turn in both or in neither, and it is the same turn. -/
theorem hostTurn_agree {s t : State} (h : Twin s t) :
    (hostTurn s = none ∧ hostTurn t = none) ∨
      ∃ s' t', hostTurn s = some s' ∧ hostTurn t = some t' ∧ s'.Agree t' := by
  unfold hostTurn
  rw [← h.agree.afu.ph, ← h.agree.host]
  split
  · exact .inl ⟨rfl, rfl⟩
  split
  · rw [← due_agree _ h]
    split
    · exact .inr ⟨_, _, rfl, rfl, hostOp_agree _ h⟩
    · exact .inl ⟨rfl, rfl⟩
  · exact .inr ⟨_, _, rfl, rfl, beginVerb_agree _
      (h.agree.of_eq rfl rfl h.agree.ports h.agree.chan (by simp [h.agree.host]) h.agree.feed)⟩
  · exact .inl ⟨rfl, rfl⟩

end Sys2Proof.Machine
end

