-- ==== Sys2Proof/Laws/PerInstr.lean ====
section
/-! SUPPORT. Facts about every instruction as a term, one lemma per constructor. -/

namespace Sys2Proof.Laws.AgentPort

/-- An instruction is issued at the port group of its agent (spec/30_encoding.md R66, spec/10_state.md R31). -/
def Statement (i : Instr) : Prop := (encode i).agent = i.agent

theorem build (u c p : Byte) (d : Half) : Statement (.build u c p d) := rfl
theorem start : Statement (.start) := rfl
theorem getstat : Statement (.getstat) := rfl
theorem getdata : Statement (.getdata) := rfl
theorem getb (i : BitVec 3) : Statement (.getb i) := rfl
theorem sigcmp : Statement (.sigcmp) := rfl
theorem cksum (f : BitVec 64) : Statement (.cksum f) := rfl
theorem ckvalid (f : BitVec 64) : Statement (.ckvalid f) := rfl
theorem validate (f g : BitVec 64) (n : BitVec 4) : Statement (.validate f g n) := rfl
theorem illegal0 : Statement (.illegal0) := rfl
theorem illegal7 : Statement (.illegal7) := rfl
theorem illegalB : Statement (.illegalB) := rfl
theorem illegalC : Statement (.illegalC) := rfl
theorem illegalD : Statement (.illegalD) := rfl
theorem illegalE : Statement (.illegalE) := rfl
theorem illegalF : Statement (.illegalF) := rfl
theorem txb : Statement (.txb) := rfl
theorem rxb (b : Byte) : Statement (.rxb b) := rfl
theorem rxend : Statement (.rxend) := rfl
theorem getParam (n : String) : Statement (.getParam n) := rfl
theorem setParam (n : String) (v : Int) : Statement (.setParam n v) := rfl
theorem move (v : Int) : Statement (.move v) := rfl
theorem state : Statement (.state) := rfl
theorem reset : Statement (.reset) := rfl
theorem echo : Statement (.echo) := rfl
theorem stop : Statement (.stop) := rfl
theorem enableTracking : Statement (.enableTracking) := rfl
theorem result (n : String) : Statement (.result n) := rfl
theorem frame (b : List Byte) : Statement (.frame b) := rfl

end Sys2Proof.Laws.AgentPort
end

