-- ==== Sys2Proof/Tests/Slice0.lean ====
section
/-! SUPPORT. The model's own tests, each on fixed values that spec/95_test_vectors.md or the rule named gives, and for every statement
with hypotheses a witness that meets them. -/

namespace Sys2Proof.Tests

open Sys2Proof Sys2Proof.Machine

/-! Small states. -/

/-- The request of `result("Speed")`, V-BLD-4. -/
def speedReq : Frame := #v[0x10, 0x3C, 0x05, 0x00, 0x00, 0x00, 0x00, 0xAF]

/-- The response of S3. -/
def speedAns : Frame := #v[0x10, 0x3C, 0x05, 0x00, 0x01, 0xF4, 0x30, 0x8A]

/-- A host at unit 0x10. The codes and bounds the source does not give are the test's own. -/
def cfg16 : HostConfig where
  unit        := 0x10
  cmdExec     := 0x21
  cmdGetParam := 0x22
  cmdSetParam := 0x4B
  subEnrot    := 0x01
  subReset    := 0x02
  subSetrot   := 0x03
  subStop     := 0x04
  parEcho     := 0x00
  params      := [("Address", { code := 0x08, min := 0, max := 255 }), ("Wide", { code := 0x08, min := 10, max := 500 })]
  results     := [("Speed", { code := 0x05, min := 0, max := 0xFFFF })]

/-- A state with the given block, nothing in the channel, no verb called, nothing coming. -/
def st (a : Afu) : State where
  afu   := a
  ports := Ports.idle
  chan  := { input := [], output := [], coming := [] }
  host  := { cfg := cfg16, call := none, pending := [], result := none }
  feed  := []

def aIdle : Afu := Afu.reset
def aLoaded : Afu := { Afu.reset with txf := speedReq, ph := .loaded }
def aTx (n : BitVec 4) : Afu := { aLoaded with ph := .tx, txi := n }
def aRx (n : BitVec 4) : Afu := { aLoaded with ph := .rx, txi := 8, rxf := speedAns, rxn := n }
def aDone (r : Res) (e : Byte) (n : BitVec 4) : Afu := { aRx n with ph := .done, res := r, err := e }

/-- The state of a channel about to deliver the given bytes, in IDLE. -/
def delivering (a : List Byte) : State := { st aIdle with chan := { input := [], output := [], coming := a.map ChanMove.byte } }

/-- The channel's plan of a collection that is given up at once. -/
def silent : State := { st aIdle with chan := { input := [], output := [], coming := [.close] } }

/-- The state after an instruction that completes. -/
def after (i : Instr) (s : State) : Option State :=
  match exec i s with
  | .next t => some t
  | _ => none

/-- The state after one step that completes. -/
def stepped (s : State) : Option State :=
  match step s with
  | .next t => some t
  | _ => none

/-- The reason for a refusal. -/
def refusal (i : Instr) (s : State) : Option Refusal :=
  match exec i s with
  | .refused r => some r
  | _ => none

/-! WellFormed, and decoding. -/

theorem test_frame_of_seven_is_ill_formed : (Instr.frame [0x10, 0x4B, 0x08, 0x00, 0x01, 0xF4, 0x00]).wellFormed = false := by decide
theorem test_frame_of_eight_is_well_formed : (Instr.frame speedReq.toList).wellFormed = true := by decide

theorem test_decode_build : decodeTableWord 48 0b00010001000001001011000010000000000111110100 =
    some (.build 16 0x4B 0x08 500) := by decide
theorem test_decode_start : decodeTableWord 8 0b0010 = some .start := by decide
theorem test_decode_getstat : decodeTableWord 8 0b0011 = some .getstat := by decide
theorem test_decode_getdata : decodeTableWord 8 0b0100 = some .getdata := by decide
theorem test_decode_getb : decodeTableWord 8 0b0101110 = some (.getb 6) := by decide
theorem test_decode_sigcmp : decodeTableWord 8 0b0110 = some .sigcmp := by decide
theorem test_decode_cksum : decode (.host { hostPorts 0b1000 with fin := 0x104B080001F40055 }) =
    .ok (.cksum 0x104B080001F40055) := by decide
theorem test_decode_ckvalid : decode (.host { hostPorts 0b1001 with fin := 0x103C040000101091 }) =
    .ok (.ckvalid 0x103C040000101091) := by decide
theorem test_decode_validate :
    decode (.host { hostPorts 0b1010 with fin := 0x103C0400000000B0, fin2 := 0x103C040000101091, count := 8 }) =
      .ok (.validate 0x103C0400000000B0 0x103C040000101091 8) := by decide
theorem test_decode_illegal :
    [0b0000, 0b0111, 0b1011, 0b1100, 0b1101, 0b1110, 0b1111].map (decodeTableWord 8) =
      [some .illegal0, some .illegal7, some .illegalB, some .illegalC, some .illegalD, some .illegalE, some .illegalF] := by decide
theorem test_decode_txb : decode .tx = .ok .txb := by decide
theorem test_decode_rxb : decodeTableWord 16 0b010001010 = some (.rxb 0x8A) := by decide
theorem test_decode_rxend : decodeTableWord 16 0b110001010 = some .rxend := by decide
theorem test_decode_verbs :
    [decode (.call .getParam [.name "Address"]), decode (.call .setParam [.name "Address", .int 500]),
      decode (.call .move [.int (-500)]), decode (.call .state []), decode (.call .reset []), decode (.call .echo []),
      decode (.call .stop []), decode (.call .enableTracking []), decode (.call .result [.name "Speed"])] =
    [.ok (.getParam "Address"), .ok (.setParam "Address" 500), .ok (.move (-500)), .ok .state, .ok .reset, .ok .echo, .ok .stop,
      .ok .enableTracking, .ok (.result "Speed")] := by decide
theorem test_decode_move_default : decode (.call .move []) = .ok (.move 0) := by decide
theorem test_decode_frame : decodeTableWord 64 0x104B080001F400A8 =
    some (.frame [0x10, 0x4B, 0x08, 0x00, 0x01, 0xF4, 0x00, 0xA8]) := by decide
theorem test_decode_refuses_seven_bytes : decode (.wire [0x10, 0x4B, 0x08, 0x00, 0x01, 0xF4, 0x00]) =
    .error (.frameLength 7) := by decide

/-! The checksum family: V-CK-1, V-CK-3, V-CK-6; V-CV-3, V-CV-13; the running sum of V-CK-1. -/

theorem test_cksum_fixture : (after (.cksum 0x104B080001F40055) (st aIdle)).map (·.ports.out) = some 0xA8 := by decide
theorem test_cksum_largest : (after (.cksum 0xFFFFFFFFFFFFFF00) (st (aTx 3))).map (·.ports.out) = some 0x07 := by decide
theorem test_cksum_multiple_of_256 : cksum [0x10, 0xF0, 0, 0, 0, 0, 0] = 0x00 := by decide
theorem test_ckvalid_mismatch : (after (.ckvalid 0x103C040000101091) (st aIdle)).map (·.ports.out) = some 0 := by decide
theorem test_ckvalid_rotation : (after (.ckvalid 0x0001F4308A103C05) (st aIdle)).map (·.ports.out) = some 1 := by decide
theorem test_running_sum : [0x10, 0x4B, 0x08, 0x00, 0x01, 0xF4, 0x00].foldl add8 (0 : Byte) = 0x58 ∧ neg8 0x58 = 0xA8 := by decide

/-! The serialiser family: V-BLD-1, V-BLD-3, V-SEQ-4, V-SEQ-5; START and TXB after V-BLD-4. -/

theorem test_build_fixture : (after (.build 16 0x4B 0x08 500) (st aIdle)).map (·.afu.txf.toList) =
    some [0x10, 0x4B, 0x08, 0x00, 0x01, 0xF4, 0x00, 0xA8] := by decide
theorem test_build_refused_in_tx : (after (.build 1 2 3 4) (st (aTx 3))).map (fun t => (t.ports.refused, t.afu)) =
    some (true, aTx 3) := by decide
theorem test_build_maxima : (build 255 255 255 0xFFFF).toList = [0xFF, 0xFF, 0xFF, 0x00, 0xFF, 0xFF, 0x00, 0x05] := by decide
theorem test_start_flushes :
    (after .start { st aLoaded with chan := { input := [0x00, 0x01], output := [0x55], coming := [] } }).map
      (fun t => (t.afu.ph, t.chan.input, t.chan.output, t.ports.flush)) = some (.tx, [], [], true) := by decide
theorem test_start_refused_in_idle : (after .start (st aIdle)).map (fun t => (t.ports.refused, t.afu.status)) =
    some (true, 0x000000) := by decide
theorem test_txb_eighth_byte : (after .txb (st (aTx 7))).map (fun t => (t.ports.txByte, t.afu.status)) =
    some (0xAF, 0x002003) := by decide
theorem test_txb_third_byte : (after .txb (st (aTx 2))).map (fun t => (t.ports.txByte, t.afu.status, t.chan.output)) =
    some (0x05, 0x000C02, [0x05]) := by decide

/-! The deserialiser family: V-ST-5, V-VAL-1, V-VAL-4, V-VAL-6, V-VAL-7, V-VAL-10, V-SEQ-7, V-RD-1, V-RD-2, V-RD-6, V-SIG-1, V-SIG-3. -/

theorem test_rxb_stores : (after (.rxb 0x01) (st (aRx 4))).map (fun t => (t.afu.rxf[4], t.afu.status)) =
    some (0x01, 0x002143) := by decide
theorem test_rxb_not_enabled_at_eight : refusal (.rxb 0x55) (st (aRx 8)) = some .stepNotEnabled := by decide
theorem test_rxend_ok : (after .rxend (st (aRx 8))).map (·.afu.status) = some 0x00220C := by decide
theorem test_rxend_short : (after .rxend (st (aRx 3))).map (·.afu.status) = some 0x0020D4 := by decide
theorem test_validate_device_error :
    (after (.validate 0x103C0500000000AF 0x103D050001F43089 8) (st aIdle)).map (·.ports.out) = some 0x003D04 := by decide
theorem test_validate_count_of_fifteen :
    (after (.validate 0x103C0500000000AF 0x103C050001F4308A 15) (st aIdle)).map (·.ports.out) = some 0x000002 := by decide
theorem test_validate_order :
    validate speedReq [0, 0, 0, 0, 0, 0, 0] = (.incomplete, 0) ∧
    validate speedReq [0x10, 0x3D, 0x05, 0x00, 0x01, 0xF4, 0x30, 0x8A] = (.checksum, 0) ∧
    validate speedReq [0x11, 0x3C, 0x05, 0x00, 0x01, 0xF4, 0x30, 0x89] = (.ok, 0) := by decide
theorem test_getstat_device_error : (after .getstat (st (aDone .deverr 0x3D 8))).map (·.ports.out) = some 0x3D2224 := by decide
theorem test_getdata : (after .getdata (st (aDone .ok 0 8))).map (·.ports.out) = some 500 := by decide
theorem test_getdata_refused_after_checksum : (after .getdata (st (aDone .checksum 0 8))).map (fun t => (t.ports.out, t.ports.refused)) =
    some (0, true) := by decide
theorem test_getb : [0, 1, 2, 3, 4, 5, 6, 7].map (fun i => (after (.getb i) (st (aDone .ok 0 8))).map (·.ports.out)) =
    [some 0x10, some 0x3C, some 0x05, some 0x00, some 0x01, some 0xF4, some 0x30, some 0x8A] := by decide
theorem test_sigcmp :
    (after .sigcmp (st { aDone .ok 0 8 with rxf := #v[0x10, 0xF0, 0x41, 0x57, 0x44, 0x00, 0x10, 0x14] })).map (·.ports.out) =
      some 1 := by decide
theorem test_sigcmp_shifted :
    (after .sigcmp (st { aDone .ok 0 8 with rxf := #v[0x10, 0xF0, 0x00, 0x41, 0x57, 0x44, 0x10, 0x14] })).map (·.ports.out) =
      some 0 := by decide

/-! The illegal selects: V-SEQ-3, here in DONE. -/

theorem test_illegal_selects_refused :
    [Instr.illegal0, .illegal7, .illegalB, .illegalC, .illegalD, .illegalE, .illegalF].map
      (fun i => (after i (st (aDone .ok 0 8))).map (fun t => (t.ports.refused, t.ports.out, t.afu == aDone .ok 0 8))) =
    List.replicate 7 (some (true, 0, true)) := by decide

/-! The verbs: S3, S5, S6, V-VB-3 to V-VB-6, V-VB-8 to V-VB-12. -/

/-- The request that the call of a verb builds. -/
def request (i : Instr) : Option (List Byte × Phase) := (after i (st aIdle)).map fun t => (t.afu.txf.toList, t.afu.ph)

/-- The host inside a verb, the block in DONE with the given outcome of the given response. -/
def ended (c : CallState) (r : Res) (e : Byte) (f : Frame) : State :=
  { st { aDone r e 8 with rxf := f } with host := { cfg := cfg16, call := some c, pending := [], result := none } }

theorem test_result_speed_request : request (.result "Speed") = some (speedReq.toList, .loaded) := by decide
theorem test_result_speed_value : (stepped (ended (.decoding .data []) .ok 0 speedAns)).map (fun t => (t.host.result, t.host.call)) =
    some (some (.value 500), none) := by decide
theorem test_result_address_is_unknown : (after (.result "Address") (st aIdle)).map (fun t => (t.host.result, t.afu)) =
    some (some (.raised (.unknownParameter "Address")), aIdle) := by decide
theorem test_echo_request : request .echo = some ([0x10, 0xF0, 0x00, 0x00, 0x00, 0x00, 0x00, 0x00], .loaded) := by decide
theorem test_echo_flag :
    (stepped (ended (.decoding .signature []) .ok 0 #v[0x10, 0xF0, 0x41, 0x57, 0x44, 0x00, 0x10, 0x14])).map (·.host.result) =
      some (some (.flag true)) := by decide
theorem test_bad_checksum_raises : (stepped (ended (.waiting .signature) .checksum 0 speedAns)).map (·.host.result) =
    some (some (.raised .checksumMismatch)) := by decide
theorem test_device_error_raises : (stepped (ended (.waiting .data) .deverr 0x3D speedAns)).map (·.host.result) =
    some (some (.raised (.deviceError 0x3D))) := by decide
theorem test_set_param_out_of_range : (after (.setParam "Address" 500) (st aIdle)).map
    (fun t => (t.host.result, t.afu, t.chan.output)) =
      some (some (.raised (.outOfRange "Address" 500 0 255)), aIdle, []) := by decide
theorem test_set_param_upper_bound : request (.setParam "Wide" 500) =
    some ([0x10, 0x4B, 0x08, 0x00, 0x01, 0xF4, 0x00, 0xA8], .loaded) := by decide
theorem test_get_param_request : request (.getParam "Address") = some ([0x10, 0x22, 0x08, 0, 0, 0, 0, 0xC6], .loaded) := by decide
theorem test_get_param_unknown : (after (.getParam "address") (st aIdle)).map (·.host.result) =
    some (some (.raised (.unknownParameter "address"))) := by decide
theorem test_move_negative : (request (.move (-500))).map (·.1.take 7) =
    some [0x10, 0x21, 0x03, 0x00, 0xFE, 0x0C, 0x00] := by decide
theorem test_move_truncates : (request (.move 70000)).map (·.1.take 7) = some [0x10, 0x21, 0x03, 0x00, 0x11, 0x70, 0x00] := by decide
theorem test_state_request : (request .state).map (·.1) = some [0x10, 0x22, 0x1C, 0, 0, 0, 0, neg8 0x4E] := by decide
theorem test_state_reads_byte_5 : (stepped (ended (.decoding .flags [0x01]) .ok 0 speedAns)).map (·.host.call) =
    some (some (.decoding .flags [0x01, 0xF4])) := by decide
theorem test_reset_request : (request .reset).map (·.1.take 7) = some [0x10, 0x21, 0x02, 0, 0, 0, 0] := by decide
theorem test_stop_request : (request .stop).map (·.1.take 7) = some [0x10, 0x21, 0x04, 0, 0, 0, 0] := by decide
theorem test_enable_tracking_request : (request .enableTracking).map (·.1.take 7) = some [0x10, 0x21, 0x01, 0, 0, 0, 0] := by decide

/-! The wire and the step: R48, R190, R111. -/

theorem test_frame_reaches_the_channel : (after (.frame speedAns.toList) (st (aTx 3))).map (fun t => (t.chan.input, t.afu)) =
    some (speedAns.toList, aTx 3) := by decide
theorem test_reset_input_in_rx : (stepped { st (aRx 3) with feed := [.resetInput] }).map (·.afu.status) = some 0x000000 := by decide
theorem test_held_byte_is_delivered :
    (stepped { st (aRx 0) with chan := { input := [0x77, 0x78], output := [], coming := [] } }).map
      (fun t => (t.afu.rxf[0], t.chan.input)) = some (0x77, [0x78]) := by decide
theorem test_fetch_from_reset : (stepped (State.reset.withFetchWord 8 0x2)).map (fun t => (t.ports.refused, t.afu.status)) =
    some (true, 0x000000) := by decide

/-! Witnesses: for each statement with hypotheses, concrete values that meet them, at the ends of their ranges. -/

theorem witness_ChecksumIsNegatedByteSum : [0xFF, 0xFF, 0xFF, 0xFF, 0xFF, 0xFF, (0xFF : Byte)].length = 7 ∧
    byteSum [0xFF, 0xFF, 0xFF, 0xFF, 0xFF, 0xFF, 0xFF] = 1785 := by decide

theorem witness_GeneratorAndCheckerAgree :
    (speedReq.toList.take 7).length = 7 ∧ ckvalid (speedReq.toList.take 7 ++ [0xAF]) = true := by decide

theorem witness_RunningSumGivesTheChecksum : (speedAns.toList.take 7).length = 7 ∧ speedAns.toList.length = 8 ∧
    ckvalid speedAns.toList = true := by decide

theorem witness_BuiltFramesAreTheValidRequests : BuiltFrame speedReq ∧ BuiltFrame (build 0xFF 0xFF 0xFF 0xFFFF) ∧
    build 0x80 0x80 0 0 = build 0x80 0x80 0 0 := ⟨⟨rfl, rfl, by decide⟩, ⟨rfl, rfl, by decide⟩, rfl⟩

theorem witness_ChecksumDetectsOneByteAndHasBlindSpots :
    (7 < speedAns.toList.length ∧ ckvalid speedAns.toList = true ∧ (0x8B : Byte) ≠ speedAns.toList[7]) ∧
    (List.zipWith (fun a b : Byte => (b.toNat : Int) - (a.toNat : Int)) speedAns.toList
      [0x10, 0x3C, 0x05, 0x00, 0x01, 0xF5, 0x2F, 0x8A]).sum % 256 = 0 ∧
    (speedAns.toList.set 4 (0x01 ^^^ 0x80)).set 5 (0xF4 ^^^ 0x80) = [0x10, 0x3C, 0x05, 0x00, 0x81, 0x74, 0x30, 0x8A] := by decide

theorem witness_ChecksumDetects_permutation :
    List.Perm [0x10, 0x3C, 0x05, 0x00, 0x01, 0xF4, 0x30, (0x8A : Byte)] [0x10, 0x3C, 0x05, 0x00, 0xF4, 0x01, 0x30, 0x8A] := by decide

theorem witness_HostOperationSelects :
    (hostPorts 0x8).op = 0x8 ∧ (hostPorts 0x9).op = 0x9 ∧ (hostPorts 0x1).op = 0x1 ∧ (hostPorts 0x2).op = 0x2 ∧
    (hostPorts 0xA).op = 0xA ∧ (hostPorts 0x3).op = 0x3 ∧ (hostPorts 0x4).op = 0x4 ∧ (hostPorts 0x5).op = 0x5 ∧
    (hostPorts 0x6).op = 0x6 ∧ (hostPorts 0x0).op = 0x0 ∧ (hostPorts 0x7).op = 0x7 ∧ (hostPorts 0xB).op = 0xB ∧
    (hostPorts 0xC).op = 0xC ∧ (hostPorts 0xD).op = 0xD ∧ (hostPorts 0xE).op = 0xE ∧ (hostPorts 0xF).op = 0xF := by decide

theorem witness_BuildLoadsTheRequest :
    (st aIdle).afu.ph = .idle ∧ (st aLoaded).afu.ph = .loaded ∧ (st (aDone .deverr 0x3D 8)).afu.ph = .done ∧
    (st (aTx 0)).afu.ph = .tx ∧ (st (aRx 8)).afu.ph = .rx := by decide

theorem witness_StartFlushesAndOpens : (st aLoaded).afu.ph = .loaded ∧ (st (aDone .ok 0 8)).afu.ph ≠ .loaded := by decide

theorem witness_TxbEmitsTheNextByte :
    ((st (aTx 0)).afu.ph = .tx ∧ (st (aTx 0)).afu.txi.toNat < 8 ∧ (st (aTx 0)).feed = []) ∧
    ((st (aTx 7)).afu.ph = .tx ∧ (st (aTx 7)).afu.txi.toNat < 8 ∧ (st (aTx 7)).feed = []) ∧
    (st (aRx 0)).afu.ph ≠ .tx ∧ 8 ≤ (st (aTx 8)).afu.txi.toNat := by decide

theorem witness_ExchangeCollectsAndValidates :
    (st aLoaded).afu.ph = .loaded ∧ speedAns.toList.length ≤ 8 ∧ ([] : List Byte).length ≤ 8 := by decide

theorem witness_TransmissionEndsWhenLeftAlone :
    (st (aTx 7)).afu.ph = .tx ∧ (st (aTx 7)).afu.txi.toNat < 8 ∧ (st (aTx 7)).feed = [] := by decide

theorem witness_RxbStoresTheByte :
    ((st (aRx 7)).afu.ph = .rx ∧ (st (aRx 7)).afu.rxn.toNat < 8) ∧ (st (aTx 0)).afu.ph ≠ .rx ∧
    ((st (aRx 8)).afu.ph = .rx ∧ 8 ≤ (st (aRx 8)).afu.rxn.toNat ∧ (st (aRx 8)).feed = []) := by decide

theorem witness_RxendClosesAndValidates :
    (st (aRx 0)).afu.ph = .rx ∧ (st aIdle).afu.ph ≠ .rx ∧
    ((st (aRx 8)).afu.ph = .rx ∧ (st (aRx 8)).afu.rxn.toNat = 8 ∧ (st (aRx 8)).feed = []) := by decide

theorem witness_ValidatorMakesThreeChecksInOrder :
    (speedAns.toList.take 7).length ≠ 8 ∧ speedAns.toList.length = 8 ∧ byteSum (speedAns.toList.set 7 0x8B) % 256 ≠ 0 ∧
    (byteSum [0x10, 0x3D, 0x05, 0x00, 0x01, 0xF4, 0x30, 0x89] % 256 = 0 ∧ (0x3D : Byte) ≠ speedReq[1]) ∧
    (byteSum speedAns.toList % 256 = 0 ∧ speedAns.toList[1] = speedReq[1]) ∧
    byteSum speedAns.toList % 256 = byteSum [0x11, 0x3C, 0x05, 0x00, 0x01, 0xF4, 0x30, 0x89] % 256 := by decide

theorem witness_ValidateAnswersTheOutcome :
    ((8 : BitVec 4).toNat ≤ 8 ∧ validate speedReq (speedAns.toList.take 8) = (.ok, 0)) ∧
    ((0 : BitVec 4).toNat ≤ 8 ∧ validate speedReq (speedAns.toList.take 0) = (.incomplete, 0)) ∧
    8 < (9 : BitVec 4).toNat ∧ 8 < (15 : BitVec 4).toNat := by decide

theorem witness_ReadsAnswerAfterGoodValidation :
    ((st (aDone .ok 0 8)).afu.ph = .done ∧ (st (aDone .ok 0 8)).afu.res = .ok) ∧
    (st (aRx 8)).afu.ph ≠ .done ∧ (st (aDone .deverr 0 8)).afu.res ≠ .ok := by decide

theorem witness_NoDecodeAfterFailedValidation :
    exec .rxend (st (aRx 7)) = .next (rxendStep (st (aRx 7))) ∧
    (validate (st (aRx 7)).afu.txf ((st (aRx 7)).afu.rxf.toList.take (st (aRx 7)).afu.rxn.toNat)).1 ≠ .ok ∧
    (st aIdle).afu.res ≠ .ok ∧ Instr.getb 0 ∈ [Instr.getdata, Instr.getb 0, Instr.sigcmp] :=
  ⟨rfl, by decide, by decide, by decide⟩

theorem witness_DecodeOfEncode :
    (Instr.frame speedReq.toList).wellFormed = true ∧ decode (.rx false 0xFF) = .ok (.rxb 0xFF) := by decide

theorem witness_TableWordsDecode :
    ((Instr.build 255 255 255 0xFFFF).wellFormed = true ∧ tableWord (.build 255 255 255 0xFFFF) = some (48, 0x1FFFFFFFFFF)) ∧
    tableWord (.getb 7) = some (8, 0x2F) ∧ tableWord (.rxb 0xFF) = some (16, 0xFF) ∧
    tableWord (.frame speedReq.toList) = some (64, 0x103C0500000000AF) := by decide

theorem witness_UnnamedPortsAreIgnored :
    let p : HostPorts := { hostPorts 0x5 with idx := 7, fin := 1, data := 500 }
    let q : HostPorts := { hostPorts 0x5 with idx := 7, count := 9 }
    p.op = q.op ∧ (p.op = 0x5 → p.idx = q.idx) ∧ p.op ≠ 0x1 ∧ p.op ≠ 0x8 ∧ p.op ≠ 0x9 ∧ p.op ≠ 0xA := by decide

theorem witness_SequencingFollowsTheTable :
    (isVerb .txb = false ∧ Instr.txb.agent ≠ .wire ∧ enabledByTable .txb (aTx 7) = true ∧ enabledByTable .txb (aTx 8) = false ∧
      Instr.txb.agent ≠ .host) ∧
    (isVerb .start = false ∧ Instr.start.agent = .host ∧ enabledByTable .start aLoaded = true ∧
      enabledByTable .start (aDone .ok 0 8) = false) ∧
    ((st (aRx 8)).afu.ph = .rx ∧ (st (aRx 8)).afu.rxn = 8 ∧ (st (aRx 8)).feed = []) := by decide

/-- A state in RX to which the reset input comes, with something behind it. -/
theorem witness_ResetEventInAnyPhase :
    ({ st (aRx 3) with feed := [.resetInput, .arrive 0] } : State).feed = .resetInput :: [.arrive 0] := rfl

theorem witness_StepRunsTheDecodedInstruction :
    hostTurn { st aIdle with feed := [.port (.host { hostPorts 0x5 with idx := 7 })] } = none ∧
    ({ st aIdle with feed := [.port (.host { hostPorts 0x5 with idx := 7 })] } : State).feed =
      .port (.host { hostPorts 0x5 with idx := 7 }) :: [] ∧
    decode (.host { hostPorts 0x5 with idx := 7 }) = .ok (.getb 7) := ⟨rfl, rfl, by decide⟩

theorem witness_FetchedWordRunsNext : decodeTableWord 64 0xFFFFFFFFFFFFFFFF = some (.frame (List.replicate 8 0xFF)) ∧
    hostTurn (st aIdle) = none ∧ hostTurn { st aIdle with host := { cfg := cfg16, call := none, pending := [.stop], result := none } } ≠ none :=
  ⟨by decide, rfl, by rw [hostTurn_begin _ .stop [] (by decide) (by decide) rfl rfl]; exact Option.some_ne_none _⟩

theorem witness_InputsThatAreNoInstruction :
    ({ st (aTx 0) with feed := [.arrive 0x10] } : State).feed = .arrive 0x10 :: [] ∧
    hostTurn { st (aTx 0) with feed := [.arrive 0x10] } = none ∧ hostTurn { st aIdle with feed := [.port (.wire [])] } = none ∧
    ({ st aIdle with feed := [.port (.wire [])] } : State).feed = .port (.wire []) :: [] ∧ ([] : List Byte).length ≠ 8 ∧
    (speedAns.toList ++ [0x00]).length ≠ 8 := ⟨rfl, rfl, rfl, rfl, by decide, by decide⟩

theorem witness_FrameReachesTheChannel : speedAns.toList.length = 8 := by decide

theorem witness_HeldBytesAreDeliveredInOrder :
    let s : State := { st (aRx 7) with chan := { input := [0x8A, 0x00], output := [], coming := [] } }
    s.afu.ph = .rx ∧ s.afu.rxn.toNat < 8 ∧ s.feed = [] ∧ s.chan.input = 0x8A :: [0x00] := by decide

theorem witness_ExchangeMayNeverEnd :
    (st (aRx 7)).afu.ph = .rx ∧ (st (aRx 7)).afu.rxn.toNat < 8 ∧ (st (aRx 7)).feed = [] ∧ (st (aRx 7)).chan.input = [] ∧
    (st (aRx 7)).chan.coming = [] := by decide

/-- A loaded block with the given bytes in `RXF`, to which START is coming. -/
def starting (f : Frame) : State := { st { aLoaded with rxf := f } with feed := [.port (.host (hostPorts 0x2))] }

theorem starting_inv (f : Frame) : (starting f).Inv := by
  have valid : ckvalid speedReq.toList = true := by decide
  refine ⟨⟨⟨Nat.zero_le _, Nat.zero_le _⟩, ?_, ?_, ?_, ?_, ?_, ?_, ?_, ?_, ?_, fun _ => ⟨rfl, rfl, valid⟩, ?_⟩, ?_⟩ <;>
    simp [starting, st, aLoaded, Afu.reset]

theorem witness_StepKeepsTheInvariant : (starting speedAns).Inv ∧
    step (starting speedAns) = .next (startStep { starting speedAns with feed := [] }) := ⟨starting_inv _, rfl⟩

/-- Two states of the invariant with different bytes in `RXF`, none of them collected. -/
theorem witness_UnreadBytesAreNeverSeen : (starting speedAns).Inv ∧ (starting zeroFrame).Inv ∧
    (starting speedAns).Agree (starting zeroFrame) ∧ starting speedAns ≠ starting zeroFrame :=
  ⟨starting_inv _, starting_inv _, ⟨⟨rfl, rfl, rfl, rfl, rfl, fun _ => rfl, rfl⟩, rfl, rfl, rfl, rfl⟩, by decide⟩

theorem witness_BuffersAreWrittenByBuildAndRxbOnly :
    isVerb (.rxb 0x55) = false ∧ exec (.rxb 0x55) (st (aRx 7)) = .next (rxbStep 0x55 (st (aRx 7))) ∧
    6 ≠ (st (aRx 7)).afu.rxn.toNat := ⟨rfl, rfl, by decide⟩

theorem witness_OnlyStartEntersTxAndItFlushes :
    isVerb .start = false ∧ exec .start (st aLoaded) = .next (startStep (st aLoaded)) ∧ (st aLoaded).afu.ph ≠ .tx ∧
    (startStep (st aLoaded)).afu.ph = .tx := ⟨rfl, rfl, by decide, by decide⟩

theorem witness_OnlyBuildLeavesDone :
    isVerb (.build 0 0 0 0) = false ∧ (st (aDone .ok 0 8)).afu.ph = .done ∧
    exec (.build 0 0 0 0) (st (aDone .ok 0 8)) = .next (buildStep 0 0 0 0 (st (aDone .ok 0 8))) ∧
    (buildStep 0 0 0 0 (st (aDone .ok 0 8))).afu ≠ (st (aDone .ok 0 8)).afu := ⟨rfl, rfl, rfl, by decide⟩

theorem witness_HostParametersNeverChange : step (st aIdle) = .next (idle (st aIdle)) := rfl

/-- The hypotheses of every exchange of a verb: a full response, and one given up at once. -/
theorem witness_VerbExchanges :
    ((delivering speedAns.toList).host.call = none ∧ (delivering speedAns.toList).afu.ph ≠ .tx ∧
      (delivering speedAns.toList).afu.ph ≠ .rx ∧ (delivering speedAns.toList).feed = [] ∧
      Delivers (delivering speedAns.toList).chan.coming speedAns.toList []) ∧
    (silent.host.call = none ∧ silent.afu.ph ≠ .tx ∧ silent.afu.ph ≠ .rx ∧ silent.feed = [] ∧ Delivers silent.chan.coming [] []) :=
  ⟨⟨rfl, by decide, by decide, rfl, .inl ⟨rfl, rfl⟩⟩, rfl, by decide, by decide, rfl, .inr ⟨by decide, rfl⟩⟩

theorem witness_GetParamAndResultReadAValue :
    lookup (delivering speedAns.toList).host.cfg.params "Address" = some { code := 0x08, min := 0, max := 255 } ∧
    lookup (delivering speedAns.toList).host.cfg.results "Speed" = some { code := 0x05, min := 0, max := 0xFFFF } := by decide

theorem witness_SetParamChecksTheRangeFirst :
    let d : Descriptor := { code := 0x08, min := 10, max := 500 }
    lookup silent.host.cfg.params "Wide" = some d ∧
    ((d.min.toNat : Int) ≤ 10 ∧ (10 : Int) ≤ (d.max.toNat : Int)) ∧ ((d.min.toNat : Int) ≤ 500 ∧ (500 : Int) ≤ (d.max.toNat : Int)) ∧
    (9 : Int) < (d.min.toNat : Int) ∧ (d.max.toNat : Int) < (501 : Int) ∧ silent.host.call = none := by decide

theorem witness_AbsentNamesRaiseBeforeAnything :
    lookup (st aIdle).host.cfg.params "Speed" = none ∧ lookup (st aIdle).host.cfg.results "Address" = none ∧ (st aIdle).host.call = none := by decide

theorem witness_VerbDuringAnExchangeKeepsTheRequest :
    isVerb .echo = true ∧ (st (aTx 0)).host.call = none ∧ (st (aTx 0)).afu.ph = .tx ∧ (st (aRx 8)).afu.ph = .rx := by decide

theorem witness_VerbWaitsForTheChannel :
    lookup (delivering (speedAns.toList.take 7)).host.cfg.params "Wide" = some { code := 0x08, min := 10, max := 500 } ∧
    lookup (delivering (speedAns.toList.take 7)).host.cfg.results "Speed" = some { code := 0x05, min := 0, max := 0xFFFF } ∧
    ((10 : Half).toNat : Int) ≤ 500 ∧ (500 : Int) ≤ ((500 : Half).toNat : Int) ∧
    (delivering (speedAns.toList.take 7)).host.call = none ∧ (delivering (speedAns.toList.take 7)).afu.ph ≠ .tx ∧
    (delivering (speedAns.toList.take 7)).afu.ph ≠ .rx ∧ (delivering (speedAns.toList.take 7)).feed = [] ∧ (speedAns.toList.take 7).length < 8 ∧
    (delivering (speedAns.toList.take 7)).chan.coming = (speedAns.toList.take 7).map ChanMove.byte := by decide

/-- A host inside `result("Speed")`, whose exchange has just ended, with a call of `stop()` waiting and one of `echo()` coming. -/
def answered : State :=
  { st (aDone .ok 0 8) with
    chan := { input := [], output := speedReq.toList, coming := [] }
    host := { cfg := cfg16, call := some (.waiting .data), pending := [.stop], result := none }
    feed := [.port (.call .echo [])] }

/-- The same host while the block still collects. -/
def inCall : State := { answered with afu := aRx 7 }

/-- The answer goes before the call that has come. -/
theorem test_waiting_verb_is_answered : (stepped answered).map (fun t => (t.host.result, t.host.call, t.host.pending, t.feed)) =
    some (none, some (.decoding .data []), [.stop], [.port (.call .echo [])]) := by decide

theorem test_call_waits_its_turn : (stepped inCall).map (fun t => (t.host.pending, t.host.call, t.afu, t.feed)) =
    some ([.stop, .echo], some (.waiting .data), aRx 7, []) := by decide

theorem answered_inv : answered.Inv := by
  refine ⟨⟨by decide, ?_, ?_, ?_, ?_, ?_, fun _ _ => ⟨rfl, by decide, rfl⟩, ?_, fun _ => by decide, ?_,
    fun _ => ⟨rfl, rfl, by decide⟩, ?_⟩, ?_⟩ <;> simp [answered, st, aDone, aRx, aLoaded, Afu.reset]

theorem witness_CallsWaitTheirTurn :
    (isVerb .stop = true ∧ inCall.host.call ≠ none) ∧
    (let s : State := { answered with host := { answered.host with call := none } }
    s.host.call = none ∧ s.host.pending = .stop :: [] ∧ s.afu.ph ≠ .tx ∧ s.afu.ph ≠ .rx ∧ s.feed.head? ≠ some .resetInput) := by
  decide

theorem witness_WaitingVerbIsAnsweredWhenDone : answered.Inv ∧ answered.host.call = some (.waiting .data) ∧ answered.afu.ph = .done ∧
    answered.feed.head? ≠ some .resetInput := ⟨answered_inv, rfl, rfl, by decide⟩

/-- The host is in a verb before the step and after it. -/
theorem witness_WaitingVerbIsNeverStranded : inCall.HostInv ∧ inCall.host.call ≠ none ∧
    step inCall = .next (enqueue .echo { inCall with feed := [] }) ∧
    (enqueue .echo { inCall with feed := [] }).host.call ≠ none :=
  ⟨by rintro c ⟨⟩; exact .inr (.inl rfl), by decide, rfl, by decide⟩

/-- A host about to issue START, one about to look, one about to read, and one that the reset input reaches while bytes go out. -/
theorem witness_VerbsAreMadeOfSingleOperations :
    (isVerb .echo = true ∧ (st aIdle).host.call = none) ∧
    (let s : State := { ended (.built .data) .none 0 speedAns with afu := aLoaded }
    s.host.call = some (.built .data) ∧ hostTurn s = some (hostOp (.built .data) s)) ∧
    (answered.host.call = some (.waiting .data) ∧ hostTurn answered = some (hostOp (.waiting .data) answered)) ∧
    (let s := ended (.decoding .flags [1, 2]) .ok 0 speedAns
    s.host.call = some (.decoding .flags [1, 2]) ∧ hostTurn s = some (hostOp (.decoding .flags [1, 2]) s)) ∧
    (let s : State := { inCall with afu := aTx 3, feed := [.resetInput] }
    s.host.call ≠ none ∧ s.feed = .resetInput :: []) :=
  ⟨⟨rfl, rfl⟩, ⟨rfl, rfl⟩, ⟨rfl, rfl⟩, ⟨rfl, rfl⟩, by decide, rfl⟩

end Sys2Proof.Tests
end

section
/-! PROOF. The values R34 gives after reset. STATUS is a view of the registers (R28), so its 0 follows from theirs. -/

namespace Sys2Proof.Machine

/-- R28: with every register behind it at its reset value, the status word is 0; the buffers do not enter. -/
theorem Afu.status_eq_zero {a : Afu} (hph : a.ph = .idle) (hres : a.res = .none) (herr : a.err = 0) (htxi : a.txi = 0)
    (hrxn : a.rxn = 0) : a.status = 0 := by
  simp only [Afu.status, hph, hres, herr, htxi, hrxn]
  rfl

theorem Afu.reset_status : Afu.reset.status = 0 :=
  Afu.status_eq_zero rfl rfl rfl rfl rfl

/-- Settles O27: the registers and outputs by the definition of the reset state, the status word by `Afu.reset_status`. -/
theorem resetStateHoldsTheResetValues : Obligations.ResetStateHoldsTheResetValues :=
  ⟨rfl, rfl, rfl, rfl, rfl, Afu.reset_status, rfl, rfl, rfl, rfl⟩

end Sys2Proof.Machine
end

section
/-! PROOF. The seven select codes that select nothing (spec/30_encoding.md R68). The decoder's arm for such a code names no other
port (R67), so the code alone settles what it reads; all seven instructions run as the one shared refusal (R33). -/

namespace Sys2Proof.Machine

/-- What stands at the host's ports decodes as the select code says; once the code is a literal, the decoder computes. -/
theorem decode_host_of_op {p : HostPorts} {op : BitVec 4} (h : p.op = op) :
    decode (.host p) = decode (.host { p with op := op }) := by
  subst h
  rfl

/-- The instructions of the select codes that select nothing (R68). -/
def illegalSelects : List Instr := [.illegal0, .illegal7, .illegalB, .illegalC, .illegalD, .illegalE, .illegalF]

theorem exec_eq_refuse_of_mem_illegalSelects {op : Instr} (h : op ∈ illegalSelects) (s : State) :
    exec op s = .next (refuse s) := by
  simp only [illegalSelects, List.mem_cons, List.not_mem_nil, or_false] at h
  rcases h with rfl | rfl | rfl | rfl | rfl | rfl | rfl <;> rfl

/-- Settles O20: each code decodes by `decode_host_of_op`, and the state reached is `refuse s`, whose fields the `refuse` lemmas
give. -/
theorem illegalSelectsAreRefused : Obligations.IllegalSelectsAreRefused := by
  constructor
  · intro p
    refine ⟨?_, ?_, ?_, ?_, ?_, ?_, ?_⟩ <;> exact decode_host_of_op
  · intro s op hop
    exact ⟨refuse s, exec_eq_refuse_of_mem_illegalSelects hop s, by simp⟩

end Sys2Proof.Machine
end

section
/-! PROOF. The arithmetic of the byte sum: what one changed byte does to it, what several do, and what an 8-bit accumulator holds
(spec/40_checksum.md R85, R87). -/

namespace Sys2Proof.Machine

/-- R87 (a): a byte written over another one adds itself to the sum and takes the old one out. -/
theorem byteSum_set (l : List Byte) (i : Nat) (h : i < l.length) (b : Byte) :
    byteSum (l.set i b) + l[i].toNat = byteSum l + b.toNat := by
  induction l generalizing i with
  | nil => cases h
  | cons a l ih =>
    cases i with
    | zero => simp only [List.set_cons_zero, List.getElem_cons_zero, byteSum_cons]; omega
    | succ i =>
      have := ih i (Nat.lt_of_succ_lt_succ h)
      simp only [List.set_cons_succ, List.getElem_cons_succ, byteSum_cons]
      omega

/-- R87 (c): byte by byte, the differences add to the difference of the sums. -/
theorem sum_differences_eq_sub {l m : List Byte} (h : l.length = m.length) :
    (List.zipWith (fun a b : Byte => (b.toNat : Int) - (a.toNat : Int)) l m).sum = (byteSum m : Int) - byteSum l := by
  induction l generalizing m with
  | nil =>
    cases m with
    | nil => rfl
    | cons _ _ => cases h
  | cons a l ih =>
    cases m with
    | nil => cases h
    | cons b m =>
      rw [List.zipWith_cons_cons, List.sum_cons, ih (Nat.succ.inj h), byteSum_cons, byteSum_cons]
      omega

/-- R85: an accumulator truncated after every addition holds the exact sum truncated once. -/
theorem foldl_add8_toNat (l : List Byte) (acc : Byte) :
    (l.foldl add8 acc).toNat = (acc.toNat + byteSum l) % 256 := by
  induction l generalizing acc with
  | nil => simp [Nat.mod_eq_of_lt acc.isLt]
  | cons b l ih =>
    rw [List.foldl_cons, ih, add8_toNat, byteSum_cons]
    omega

theorem foldl_add8_zero_toNat (l : List Byte) : (l.foldl add8 0).toNat = byteSum l % 256 := by
  simp [foldl_add8_toNat]

/-- R85: the accumulator is the truncated sum as a byte. -/
theorem foldl_add8_zero (l : List Byte) : l.foldl add8 0 = BitVec.ofNat 8 (byteSum l % 256) :=
  BitVec.eq_of_toNat_eq (by rw [foldl_add8_zero_toNat, BitVec.toNat_ofNat, Nat.mod_mod])

end Sys2Proof.Machine
end

section
/-! PROOF. The checksum completes the sum of the bytes before it to a multiple of 256 (spec/40_checksum.md R80, R84, R85). -/

namespace Sys2Proof.Machine

/-- In 8 bits an exclusive-or with all ones is a subtraction from 255. -/
theorem xor_255_eq_sub {n : Nat} (h : n < 256) : n ^^^ 0xFF = 255 - n := by
  have complement := congrArg BitVec.toNat (BitVec.xor_allOnes (x := BitVec.ofNat 8 n))
  simpa [Nat.mod_eq_of_lt h] using complement

/-- R80: the checksum is the one byte that completes the sum to a multiple of 256. -/
theorem byteSum_add_mod_eq_zero_iff (l : List Byte) (k : Byte) :
    (byteSum l + k.toNat) % 256 = 0 ↔ k = cksum l := by
  have := k.isLt
  rw [← BitVec.toNat_inj, cksum_toNat]
  omega

/-- R84, for a string of any length. -/
theorem ckvalid_append_iff (l : List Byte) (k : Byte) : ckvalid (l ++ [k]) = true ↔ k = cksum l := by
  rw [ckvalid_iff, byteSum_append, ← byteSum_add_mod_eq_zero_iff]
  simp

/-- A frame is its first seven bytes and byte 7. -/
theorem frame_toList_eq_take_append (f : Frame) : f.toList = f.toList.take 7 ++ [f[7]] := by
  simp [frame_toList]

/-- R84: a checker may recompute the checksum of bytes 0 to 6 and compare it with byte 7. -/
theorem ckvalid_frame_iff (f : Frame) : ckvalid f.toList = true ↔ f[7] = cksum (f.toList.take 7) := by
  rw [frame_toList_eq_take_append f, ckvalid_append_iff, ← frame_toList_eq_take_append f]

/-- Settles O1: every form is `cksum_toNat` rearranged; the bound is 7 * 255. -/
theorem checksumIsNegatedByteSum : Obligations.ChecksumIsNegatedByteSum := by
  intro bytes hlen
  have value := cksum_toNat bytes
  refine ⟨by omega, rfl, value, ?_, ?_, byteSum_add_mod_eq_zero_iff bytes⟩
  · rw [value, xor_255_eq_sub (Nat.mod_lt _ (by decide))]
    omega
  · have := byteSum_le bytes
    omega

/-- Settles O2: the checksum is the one byte that completes the sum. -/
theorem generatorAndCheckerAgree : Obligations.GeneratorAndCheckerAgree :=
  ⟨fun bytes k _ => ckvalid_append_iff bytes k, ckvalid_frame_iff⟩

/-- Settles O3: by `foldl_add8_toNat`, an induction over the bytes from any accumulator. -/
theorem runningSumGivesTheChecksum : Obligations.RunningSumGivesTheChecksum := by
  refine ⟨fun bytes n => foldl_add8_zero_toNat _, fun bytes _ => ?_, fun bytes _ => ?_⟩
  · rw [foldl_add8_zero, cksum]
  · rw [ckvalid_iff, ← foldl_add8_zero_toNat, ← BitVec.toNat_inj]
    rfl

end Sys2Proof.Machine
end

section
/-! PROOF. Building is injective and reaches every valid frame with zeros at offsets 3 and 6 (spec/40_checksum.md R86,
spec/41_serializer.md section 3). -/

namespace Sys2Proof.Machine

/-- `build` keeps its operands: equal frames have equal bytes, and the two data bytes make the data field (R64, R95). -/
theorem build_injective {u c p u' c' p' : Byte} {d d' : Half} (h : build u c p d = build u' c' p' d') :
    u = u' ∧ c = c' ∧ p = p' ∧ d = d' := by
  have bytes := congrArg Vector.toList h
  simp only [build_toList, List.cons.injEq, true_and] at bytes
  obtain ⟨hu, hc, hp, hhi, hlo, -⟩ := bytes
  exact ⟨hu, hc, hp, by rw [← cat16_hi8_lo8 d, hhi, hlo, cat16_hi8_lo8]⟩

/-- A valid frame with zeros at 3 and 6 is built from its own bytes: the checksum leaves no choice for byte 7. -/
theorem BuiltFrame.eq_build {f : Frame} (h : BuiltFrame f) : f = build f[0] f[1] f[2] (cat16 f[4] f[5]) := by
  obtain ⟨h3, h6, valid⟩ := h
  have h7 := (ckvalid_frame_iff f).1 valid
  apply frame_ext
  rw [build_toList, hi8_cat16, lo8_cat16]
  rw [frame_toList] at h7 ⊢
  rw [h7, h3, h6]
  rfl

/-- Settles O4: `build_built`, injectivity, and byte 7 determined by the others. -/
theorem builtFramesAreTheValidRequests : Obligations.BuiltFramesAreTheValidRequests := by
  refine ⟨fun u c p d => ?_, fun _ _ _ _ _ _ _ _ => build_injective, fun _ => BuiltFrame.eq_build⟩
  obtain ⟨h3, h6, valid⟩ := build_built u c p d
  exact ⟨valid, h3, h6, valid⟩

end Sys2Proof.Machine
end

section
/-! PROOF. Which changes of a frame the checksum detects (spec/40_checksum.md R87). -/

namespace Sys2Proof.Machine

/-- Validity sees the sum modulo 256 and nothing else. -/
theorem ckvalid_eq_of_byteSum_mod_eq {l m : List Byte} (h : byteSum l % 256 = byteSum m % 256) : ckvalid l = ckvalid m := by
  rw [ckvalid, ckvalid, h]

/-- R87 (d): flipping bit 7 is adding 0x80, the carry out dropped. -/
theorem xor_0x80_toNat (b : Byte) : (b ^^^ 0x80).toNat = (b.toNat + 128) % 256 := by
  have flip : b ^^^ 0x80 = b + 0x80 := by
    revert b
    decide
  rw [flip, BitVec.toNat_add]
  rfl

/-- R87 (a): the changed sum differs by less than 256 and not by 0. -/
theorem ckvalid_set_eq_false {f : List Byte} {i : Nat} {b : Byte} (h : i < f.length) (valid : ckvalid f = true) (hne : b ≠ f[i]) :
    ckvalid (f.set i b) = false := by
  have sum := byteSum_set f i h b
  have other : b.toNat ≠ f[i].toNat := mt BitVec.eq_of_toNat_eq hne
  have := b.isLt
  have := f[i].isLt
  rw [ckvalid_iff] at valid
  rw [ckvalid_false_iff]
  omega

/-- R87 (c): differences that add to a multiple of 256 leave the sum modulo 256 as it was. -/
theorem ckvalid_eq_of_differences {f g : List Byte} (h : f.length = g.length)
    (hsum : (List.zipWith (fun a b : Byte => (b.toNat : Int) - (a.toNat : Int)) f g).sum % 256 = 0) : ckvalid f = ckvalid g := by
  rw [sum_differences_eq_sub h] at hsum
  apply ckvalid_eq_of_byteSum_mod_eq
  omega

/-- R87 (d): the two flips add 0x80 twice. -/
theorem ckvalid_flip_two {f : List Byte} {i j : Nat} (hi : i < f.length) (hj : j < f.length) (hne : i ≠ j) :
    ckvalid ((f.set i (f[i] ^^^ 0x80)).set j (f[j] ^^^ 0x80)) = ckvalid f := by
  have first := byteSum_set f i hi (f[i] ^^^ 0x80)
  have second := byteSum_set (f.set i (f[i] ^^^ 0x80)) j (by simpa using hj) (f[j] ^^^ 0x80)
  rw [List.getElem_set_ne hne] at second
  rw [xor_0x80_toNat] at first second
  apply ckvalid_eq_of_byteSum_mod_eq
  omega

/-- Settles O5: each part says what a change does to the sum modulo 256, which is all that validity sees. -/
theorem checksumDetectsOneByteAndHasBlindSpots : Obligations.ChecksumDetectsOneByteAndHasBlindSpots := by
  refine ⟨fun f i b h _ => ckvalid_set_eq_false h, fun f g h => ?_, fun f g hf hg hsum valid => ?_,
    fun f i j => ckvalid_flip_two, by decide⟩
  · exact ckvalid_eq_of_byteSum_mod_eq (by rw [byteSum_perm h])
  · rwa [← ckvalid_eq_of_differences (hf.trans hg.symm) hsum]

end Sys2Proof.Machine
end

section
/-! PROOF. The operation CKVALID: an answer and nothing written (spec/40_checksum.md R83). -/

namespace Sys2Proof.Machine

theorem flagWord_toNat (b : Bool) : (flagWord b).toNat = if b then 1 else 0 := by
  cases b <;> rfl

/-- CKVALID answers the test of the eight bytes its port carries, whatever the state (R83). -/
theorem exec_ckvalid (fin : BitVec 64) (s : State) :
    exec (.ckvalid fin) s = .next (answer (flagWord (ckvalid (frameOfPort fin).toList)) s) := by
  rw [← memRead_all]
  rfl

/-- Settles O7: `exec_ckvalid` on the unpacked port; what an answer leaves alone the `answer` lemmas say. -/
theorem ckvalidAnswersTheCheck : Obligations.CkvalidAnswersTheCheck := by
  refine ⟨fun _ => decode_host_of_op, fun b0 b1 b2 b3 b4 b5 b6 b7 s => ?_⟩
  refine ⟨_, exec_ckvalid _ s, ?_⟩
  simp [frameOfPort_append, flagWord_toNat]

end Sys2Proof.Machine
end

section
/-! PROOF. The operations BUILD and START, each on the side where it completes and on the side where it is refused
(spec/41_serializer.md R95 to R97). -/

namespace Sys2Proof.Machine

/-- In IDLE, LOADED and DONE BUILD loads the request (R96). -/
theorem exec_build_of_not_busy {s : State} (htx : s.afu.ph ≠ .tx) (hrx : s.afu.ph ≠ .rx) (u c p : Byte) (d : Half) :
    exec (.build u c p d) s = .next { s with afu := s.afu.load (build u c p d), ports := Ports.idle } := by
  rcases buildStep_cases u c p d s with ⟨busy, -⟩ | ⟨-, -, e⟩
  · exact absurd busy (not_or.2 ⟨htx, hrx⟩)
  · exact congrArg _ e

/-- In TX and RX BUILD is refused (R96). -/
theorem exec_build_of_busy {s : State} (h : s.afu.ph = .tx ∨ s.afu.ph = .rx) (u c p : Byte) (d : Half) :
    exec (.build u c p d) s = .next (refuse s) := by
  rcases buildStep_cases u c p d s with ⟨-, e⟩ | ⟨htx, hrx, -⟩
  · exact congrArg _ e
  · exact absurd h (not_or.2 ⟨htx, hrx⟩)

/-- The state START leaves when it completes: the channel flushed, the exchange open (R97). -/
def opened (s : State) : State :=
  { s with afu := s.afu.openExchange, chan := s.chan.clear, ports := { Ports.idle with flush := true } }

/-- In LOADED START opens the exchange (R97). -/
theorem exec_start_of_loaded {s : State} (h : s.afu.ph = .loaded) : exec .start s = .next (opened s) := by
  rcases startStep_cases s with ⟨-, e⟩ | ⟨hne, -⟩
  · exact congrArg _ e
  · exact absurd h hne

/-- Outside LOADED START is refused (R97). -/
theorem exec_start_of_not_loaded {s : State} (h : s.afu.ph ≠ .loaded) : exec .start s = .next (refuse s) := by
  rcases startStep_cases s with ⟨hl, -⟩ | ⟨-, e⟩
  · exact absurd hl h
  · exact congrArg _ e

/-- Settles O8: the three phases where BUILD completes are the ones outside TX and RX; the bytes loaded are `build_toList`. -/
theorem buildLoadsTheRequest : Obligations.BuildLoadsTheRequest := by
  refine ⟨fun _ => decode_host_of_op, fun u c p d s => ⟨fun h => ?_, fun busy => ?_⟩⟩
  · obtain ⟨htx, hrx⟩ : s.afu.ph ≠ .tx ∧ s.afu.ph ≠ .rx := by
      rcases h with h | h | h <;> simp [h]
    exact ⟨_, exec_build_of_not_busy htx hrx u c p d, build_toList u c p d, rfl, rfl, rfl, rfl, rfl, rfl⟩
  · exact ⟨_, exec_build_of_busy busy u c p d, by simp⟩

/-- Settles O9: `opened s` in LOADED, `refuse s` elsewhere. -/
theorem startFlushesAndOpens : Obligations.StartFlushesAndOpens := by
  refine ⟨fun _ => decode_host_of_op, fun s => ⟨fun loaded => ?_, fun other => ?_⟩⟩
  · exact ⟨_, exec_start_of_loaded loaded, rfl, rfl, rfl, rfl, rfl, rfl, rfl, rfl⟩
  · exact ⟨_, exec_start_of_not_loaded other, by simp⟩

end Sys2Proof.Machine
end

section
/-! PROOF. The exchange of a loaded request as a sequence of operations (spec/41_serializer.md R100): START, the eight TXB of the
transmission, an RXB for each byte of the response, RXEND. -/

namespace Sys2Proof.Machine

/-- An operation that completes hands the rest of the sequence its state. -/
theorem execAll_cons {i : Instr} {s t : State} (h : exec i s = .next t) (rest : List Instr) :
    execAll (i :: rest) s = execAll rest t := by
  simp [execAll, h]

theorem exec_txb_of_enabled {s : State} (h : s.afu.ph = .tx) (hi : s.afu.txi.toNat < 8) :
    exec .txb s = .next (txbStep s) :=
  if_pos ((txEnabled_iff _).2 ⟨h, hi⟩)

theorem exec_rxb_of_enabled {s : State} (h : s.afu.ph = .rx) (hn : s.afu.rxn.toNat < 8) (b : Byte) :
    exec (.rxb b) s = .next (rxbStep b s) :=
  if_pos ((rxEnabled_iff _).2 ⟨h, hn⟩)

theorem exec_rxend_of_enabled {s : State} (h : s.afu.ph = .rx) : exec .rxend s = .next (rxendStep s) :=
  if_pos h

/-- As many TXB as bytes remain end the transmission (R98). -/
theorem execAll_transmit (n : Nat) (rest : List Instr) (s : State) (h : s.afu.ph = .tx) (hn : s.afu.txi.toNat + (n + 1) = 8) :
    execAll (List.replicate (n + 1) .txb ++ rest) s = execAll rest (transmitted s) := by
  induction n generalizing s with
  | zero =>
    rw [← transmitted_last s (by omega)]
    exact execAll_cons (exec_txb_of_enabled h (by omega)) rest
  | succ n ih =>
    obtain ⟨htx, hcount, same⟩ := transmitted_more s h (by omega)
    calc execAll (List.replicate (n + 1 + 1) .txb ++ rest) s
        = execAll (List.replicate (n + 1) .txb ++ rest) (txbStep s) := execAll_cons (exec_txb_of_enabled h (by omega)) _
      _ = execAll rest (transmitted (txbStep s)) := ih (txbStep s) htx (by omega)
      _ = execAll rest (transmitted s) := by rw [same]

/-- The state after an RXB for each of the bytes `a` (R110). -/
def received (a : List Byte) (s : State) : State := a.foldl (fun t b => rxbStep b t) s

/-- RXB writes `RXF` and `RXN`, and takes from the input buffer alone (R110). -/
theorem received_frame (a : List Byte) (s : State) :
    (received a s).afu = { s.afu with rxf := (received a s).afu.rxf, rxn := (received a s).afu.rxn } ∧
    (received a s).chan.output = s.chan.output ∧ (received a s).host = s.host ∧ (received a s).feed = s.feed := by
  induction a generalizing s with
  | nil => exact ⟨rfl, rfl, rfl, rfl⟩
  | cons b a ih => exact ih (rxbStep b s)

/-- The bytes received are collected behind those already there (R110). -/
theorem received_collects (a : List Byte) (s : State) (hn : s.afu.rxn.toNat + a.length ≤ 8) :
    (received a s).afu.rxn.toNat = s.afu.rxn.toNat + a.length ∧
    memRead (received a s).afu.rxf 0 (received a s).afu.rxn.toNat = memRead s.afu.rxf 0 s.afu.rxn.toNat ++ a := by
  induction a generalizing s with
  | nil => exact ⟨rfl, (List.append_nil _).symm⟩
  | cons b a ih =>
    rw [List.length_cons] at hn ⊢
    have hlt : s.afu.rxn.toNat < 8 := by omega
    have count : (rxbStep b s).afu.rxn.toNat = s.afu.rxn.toNat + 1 := succ_toNat _ hlt
    obtain ⟨hrxn, hmem⟩ := ih (rxbStep b s) (by omega)
    refine ⟨hrxn.trans (by omega), ?_⟩
    calc memRead (received a (rxbStep b s)).afu.rxf 0 (received a (rxbStep b s)).afu.rxn.toNat
        = memRead (s.afu.store b).rxf 0 (s.afu.store b).rxn.toNat ++ a := hmem
      _ = memRead s.afu.rxf 0 s.afu.rxn.toNat ++ b :: a := by rw [store_memRead _ _ hlt, List.append_assoc]; rfl

/-- In RX an RXB for each byte completes, as long as `RXF` has room (R110). -/
theorem execAll_receive (a : List Byte) (rest : List Instr) (s : State) (h : s.afu.ph = .rx)
    (hn : s.afu.rxn.toNat + a.length ≤ 8) : execAll (a.map Instr.rxb ++ rest) s = execAll rest (received a s) := by
  induction a generalizing s with
  | nil => rfl
  | cons b a ih =>
    rw [List.length_cons] at hn
    have hlt : s.afu.rxn.toNat < 8 := by omega
    have count : (rxbStep b s).afu.rxn.toNat = s.afu.rxn.toNat + 1 := succ_toNat _ hlt
    rw [List.map_cons, List.cons_append, execAll_cons (exec_rxb_of_enabled h hlt b)]
    exact ih (rxbStep b s) h (by omega)

/-- The state after the exchange of a loaded request to which the response is `a` (R100). -/
def exchanged (a : List Byte) (s : State) : State := rxendStep (received a (transmitted (opened s)))

theorem execAll_exchange (a : List Byte) (s : State) (h : s.afu.ph = .loaded) (ha : a.length ≤ 8) :
    execAll ([.start] ++ List.replicate 8 .txb ++ a.map Instr.rxb ++ [.rxend]) s = .next (exchanged a s) := by
  have collecting : (received a (transmitted (opened s))).afu.ph = .rx := by
    rw [(received_frame a _).1]
    rfl
  calc execAll ([.start] ++ List.replicate 8 .txb ++ a.map Instr.rxb ++ [.rxend]) s
      = execAll (.start :: (List.replicate 8 .txb ++ (a.map Instr.rxb ++ [.rxend]))) s := by simp
    _ = execAll (List.replicate 8 .txb ++ (a.map Instr.rxb ++ [.rxend])) (opened s) := execAll_cons (exec_start_of_loaded h) _
    _ = execAll (a.map Instr.rxb ++ [.rxend]) (transmitted (opened s)) := execAll_transmit 7 _ _ rfl rfl
    _ = execAll [.rxend] (received a (transmitted (opened s))) := execAll_receive a _ _ rfl ((Nat.zero_add _).le.trans ha)
    _ = .next (exchanged a s) := execAll_cons (exec_rxend_of_enabled collecting) []

/-- A byte of the buffer below the count, by the bytes collected. -/
theorem getElem?_of_memRead {f : Frame} {n : Nat} {a : List Byte} (h : memRead f 0 n = a) (i : Nat) (hi : i < a.length) :
    f.toList[i]? = some a[i] := by
  rw [memRead_zero] at h
  subst h
  rw [← List.getElem?_eq_getElem hi, List.getElem?_take_of_lt (hi.trans_le (List.length_take_le _ _))]

/-- Settles O11: the sequence runs to `exchanged a s` by `execAll_exchange`; `received_frame` and
`received_collects` say the rest. -/
theorem exchangeCollectsAndValidates : Obligations.ExchangeCollectsAndValidates := by
  intro s a loaded ha
  obtain ⟨hafu, hout, hhost, hfeed⟩ := received_frame a (transmitted (opened s))
  obtain ⟨hrxn, hmem⟩ := received_collects a (transmitted (opened s)) ((Nat.zero_add _).le.trans ha)
  have count : (exchanged a s).afu.rxn.toNat = a.length := hrxn.trans (Nat.zero_add _)
  have collected : memRead (exchanged a s).afu.rxf 0 (exchanged a s).afu.rxn.toNat = a := hmem
  have request : (received a (transmitted (opened s))).afu.txf = s.afu.txf := by rw [hafu]; rfl
  refine ⟨exchanged a s, execAll_exchange a s loaded ha, rfl, request, congrArg Afu.txi hafu, count,
    getElem?_of_memRead collected, collected, ?_, hout, hhost, hfeed⟩
  calc ((exchanged a s).afu.res, (exchanged a s).afu.err)
      = validate (received a (transmitted (opened s))).afu.txf
          (memRead (exchanged a s).afu.rxf 0 (exchanged a s).afu.rxn.toNat) := rfl
    _ = validate s.afu.txf a := by rw [request, collected]

end Sys2Proof.Machine
end

section
/-! PROOF. The validator: its three checks in order, and what each looks at (spec/42_deserializer.md R114 to R119). -/

namespace Sys2Proof.Machine

/-- The first check is the length (R116). -/
theorem validate_of_length_ne {a : List Byte} (h : a.length ≠ 8) (q : Frame) : validate q a = (.incomplete, 0) :=
  if_pos h

theorem echoed_eq_getElem {a : List Byte} (h : 1 < a.length) : echoed a = a[1] :=
  (List.getElem_eq_getD 0).symm

/-- For eight bytes the outcome is a function of the response's sum and of the two bytes 1 (R117, R118, R119). -/
theorem validate_of_length_eq {a : List Byte} (h : a.length = 8) (q : Frame) :
    validate q a =
      (if byteSum a % 256 ≠ 0 then (.checksum, 0)
        else if a[1] ≠ q[1] then (.deverr, a[1])
        else (.ok, 0) : Res × Byte) := by
  rw [validate, if_neg (not_not.2 h)]
  simp only [ckvalid_false_iff, echoed_eq_getElem (a := a) (by omega)]

/-- Settles O15: each check by the branch of `validate` it decides; by `validate_of_length_eq` nothing else enters. -/
theorem validatorMakesThreeChecksInOrder : Obligations.ValidatorMakesThreeChecksInOrder := by
  refine ⟨fun q a => ⟨fun short => validate_of_length_ne short q, fun eight => ⟨?_, ?_, ?_⟩⟩, ?_⟩
  · intro bad
    rw [validate_of_length_eq eight, if_pos bad]
  · intro good differs
    rw [validate_of_length_eq eight, if_neg (not_not.2 good), if_pos differs]
  · intro good echoes
    rw [validate_of_length_eq eight, if_neg (not_not.2 good), if_neg (not_not.2 echoes)]
  · intro q q' a a' eight eight' request response sum
    rw [validate_of_length_eq eight, validate_of_length_eq eight', request, response, sum]

end Sys2Proof.Machine
end

section
/-! PROOF. The operation VALIDATE: the outcome for the first `n` bytes of its response port, and nothing written
(spec/42_deserializer.md R120). -/

namespace Sys2Proof.Machine

theorem exec_validate (fin fin2 : BitVec 64) (n : BitVec 4) (s : State) :
    exec (.validate fin fin2 n) s = .next (answer (outcomeWord (validateOperands fin fin2 n)) s) := rfl

/-- A count up to 8 takes that many bytes of the response port (R120). -/
theorem validateOperands_of_le {n : BitVec 4} (h : n.toNat ≤ 8) (fin fin2 : BitVec 64) :
    validateOperands fin fin2 n = validate (frameOfPort fin) ((frameOfPort fin2).toList.take n.toNat) := by
  rw [validateOperands, if_neg (not_lt.2 h), memRead_zero]

/-- A count of 9 to 15 is "not 8", whatever the ports carry (R120). -/
theorem validateOperands_of_gt {n : BitVec 4} (h : 8 < n.toNat) (fin fin2 : BitVec 64) :
    validateOperands fin fin2 n = (.incomplete, 0) :=
  if_pos h

/-- Settles O16: the word answered is `outcomeWord_toNat` of the operands' outcome, on each side of the count 8. -/
theorem validateAnswersTheOutcome : Obligations.ValidateAnswersTheOutcome := by
  refine ⟨fun _ => decode_host_of_op, fun q0 q1 q2 q3 q4 q5 q6 q7 r0 r1 r2 r3 r4 r5 r6 r7 n s => ?_⟩
  refine ⟨_, exec_validate _ _ n s, fun upTo8 r e outcome => ?_, fun over8 => ?_, rfl, rfl, rfl, rfl, rfl⟩
  · rw [answer_ports, outcomeWord_toNat, validateOperands_of_le upTo8, frameOfPort_append, frameOfPort_append, Vector.toList_mk,
      outcome]
  · rw [answer_ports, outcomeWord_toNat, validateOperands_of_gt over8]
    rfl

end Sys2Proof.Machine
end

section
/-! PROOF. The operation GETSTAT: the status word, and nothing written (spec/42_deserializer.md R121). -/

namespace Sys2Proof.Machine

theorem exec_getstat (s : State) : exec .getstat s = .next (answer s.afu.status s) := rfl

/-- Settles O17: the word answered is the status, whose fields are `status_fields`. -/
theorem getstatAnswersStatus : Obligations.GetstatAnswersStatus := by
  refine ⟨fun _ => decode_host_of_op, fun s => ⟨_, exec_getstat s, ?_⟩⟩
  obtain ⟨hph, hres, hrxn, htxi, hzero, herr⟩ := status_fields s.afu
  exact ⟨hph, hres, hrxn, htxi, hzero, herr, rfl, rfl, rfl, rfl, rfl⟩

end Sys2Proof.Machine
end

section
/-! PROOF. The reads of a validated response: GETDATA, GETB and SIGCMP answer where the response is readable and are refused
elsewhere (spec/42_deserializer.md R122 to R126). -/

namespace Sys2Proof.Machine

theorem readStep_of_readable {s : State} (h : s.afu.readable = true) (v : BitVec 24) : readStep v s = answer v s :=
  if_pos h

theorem readStep_of_not_readable {s : State} (h : s.afu.readable = false) (v : BitVec 24) : readStep v s = refuse s :=
  if_neg (by simp [h])

theorem exec_getdata_of_readable {s : State} (h : s.afu.readable = true) :
    exec .getdata s = .next (answer ((data16 s.afu.rxf).setWidth 24) s) :=
  congrArg _ (readStep_of_readable h _)

theorem exec_getb_of_readable {s : State} (h : s.afu.readable = true) (i : BitVec 3) :
    exec (.getb i) s = .next (answer ((s.afu.rxf[i.toNat]'i.isLt).setWidth 24) s) :=
  congrArg _ (readStep_of_readable h _)

theorem exec_sigcmp_of_readable {s : State} (h : s.afu.readable = true) :
    exec .sigcmp s = .next (answer (flagWord (sigmatch s.afu.rxf)) s) :=
  congrArg _ (readStep_of_readable h _)

/-- Outside DONE with `RES` = OK a read of the response is refused, whichever it is (R123, R124, R126). -/
theorem exec_read_of_not_readable {s : State} (h : s.afu.readable = false) {i : BitVec 3} {op : Instr}
    (hop : op ∈ [Instr.getdata, Instr.getb i, Instr.sigcmp]) : exec op s = .next (refuse s) := by
  simp only [List.mem_cons, List.not_mem_nil, or_false] at hop
  rcases hop with rfl | rfl | rfl <;> exact congrArg _ (readStep_of_not_readable h _)

theorem not_readable_iff (a : Afu) : a.readable = false ↔ a.ph ≠ .done ∨ a.res ≠ .ok := by
  rw [← Bool.not_eq_true, readable_iff, not_and_or]

/-- `out` carries the data field of R122. -/
theorem data16_setWidth_toNat (f : Frame) : ((data16 f).setWidth 24).toNat = 256 * f[4].toNat + f[5].toNat := by
  rw [BitVec.toNat_setWidth_of_le (by decide), data16, cat16_toNat]

/-- The signature test of R125, with the literal bytes. -/
theorem sigmatch_iff (f : Frame) : sigmatch f = true ↔ f[2] = 0x41 ∧ f[3] = 0x57 ∧ f[4] = 0x44 := by
  simp [sigmatch, Config.sig0, Config.sig1, Config.sig2, and_assoc]

/-- Settles O18: in DONE with OK the answers are `data16_setWidth_toNat`, the byte at the index and `sigmatch_iff`; in every other
state all three are `exec_read_of_not_readable`. -/
theorem readsAnswerAfterGoodValidation : Obligations.ReadsAnswerAfterGoodValidation := by
  refine ⟨fun _ => ⟨decode_host_of_op, decode_host_of_op, decode_host_of_op⟩, fun s done ok => ?_, fun s i other op hop => ?_⟩
  · have readable := (readable_iff s.afu).2 ⟨done, ok⟩
    refine ⟨⟨_, exec_getdata_of_readable readable, data16_setWidth_toNat _, rfl, rfl, rfl, rfl, rfl⟩, fun i => ?_, ?_⟩
    · refine ⟨_, exec_getb_of_readable readable i, ?_, ?_, rfl, rfl, rfl, rfl, rfl⟩
      · simp
      · rw [answer_ports, BitVec.toNat_setWidth_of_le (by decide)]
        exact BitVec.isLt _
    · refine ⟨_, exec_sigcmp_of_readable readable, ?_, rfl, rfl, rfl, rfl, rfl⟩
      rw [answer_ports, flagWord_toNat]
      simp only [sigmatch_iff]
  · exact ⟨_, exec_read_of_not_readable ((not_readable_iff s.afu).2 other) hop, rfl, rfl, rfl, rfl, rfl, rfl⟩

end Sys2Proof.Machine
end

section
/-! PROOF. The lookup that precedes everything else in a verb that takes a name: what makes a name absent, and the error it raises
(spec/43_protocol_verbs.md R138). -/

namespace Sys2Proof.Machine

/-- R138: the match is on the exact key. -/
theorem lookup_eq_none_iff (table : Table) (name : String) : lookup table name = none ↔ ∀ e ∈ table, e.1 ≠ name := by
  induction table with
  | nil => simp [lookup]
  | cons e rest ih =>
    by_cases h : e.1 = name
    · simp [lookup, h]
    · simp [lookup, h, ih]

theorem withDescriptor_of_lookup_eq_none {table : Table} {name : String} (h : lookup table name = none)
    (f : Descriptor → State → State) (s : State) : withDescriptor table name f s = raise (.unknownParameter name) (idle s) := by
  rw [withDescriptor, h]

/-- A verb called while no other runs begins at once (R53). -/
theorem exec_instr_of_call_eq_none {s : State} (free : s.host.call = none) (v : VerbCall) :
    exec v.instr s = .next (beginVerb v s) := by
  rw [exec_instr, call, if_pos free]

/-- Settles O48: a free host begins the verb at once, and beginning it is the failed lookup; `raise` and `idle` write the host's
place and the ports only. -/
theorem absentNamesRaiseBeforeAnything : Obligations.AbsentNamesRaiseBeforeAnything := by
  refine ⟨fun s name value i free absent => ?_, lookup_eq_none_iff⟩
  obtain ⟨v, rfl, raises⟩ : ∃ v : VerbCall, i = v.instr ∧ beginVerb v s = raise (.unknownParameter name) (idle s) := by
    rcases absent with ⟨noParam, rfl | rfl⟩ | ⟨noResult, rfl⟩
    · exact ⟨.getParam name, rfl, by rw [beginVerb, beginGetParam, withDescriptor_of_lookup_eq_none noParam]⟩
    · exact ⟨.setParam name value, rfl, by rw [beginVerb, beginSetParam, withDescriptor_of_lookup_eq_none noParam]⟩
    · exact ⟨.result name, rfl, by rw [beginVerb, beginResult, withDescriptor_of_lookup_eq_none noResult]⟩
  exact ⟨_, (exec_instr_of_call_eq_none free v).trans (congrArg _ raises), rfl, rfl, rfl, rfl, rfl, rfl, rfl, rfl⟩

end Sys2Proof.Machine
end

section
/-! PROOF. What a completed operation of the block did to the registers, by inversion, and from it the way into phase TX
(spec/70_reset_and_hazards.md R195). -/

namespace Sys2Proof.Machine

/-- An operation whose step exists only where it is enabled was enabled when it completed (R33). -/
theorem enabled_of_next {enabled : Prop} [Decidable enabled] {u t : State} {r : Refusal}
    (h : (if enabled then .next u else .refused r : Host.Outcome State Fault Refusal) = .next t) : enabled ∧ t = u := by
  split at h
  · exact ⟨‹_›, (Host.Outcome.next.inj h).symm⟩
  · cases h

theorem exec_txb_eq_next {s t : State} (h : exec .txb s = .next t) :
    s.afu.ph = .tx ∧ s.afu.txi.toNat < 8 ∧ t = txbStep s := by
  obtain ⟨enabled, ht⟩ := enabled_of_next h
  obtain ⟨hph, htxi⟩ := (txEnabled_iff _).1 enabled
  exact ⟨hph, htxi, ht⟩

theorem exec_rxb_eq_next {b : Byte} {s t : State} (h : exec (.rxb b) s = .next t) :
    s.afu.ph = .rx ∧ s.afu.rxn.toNat < 8 ∧ t = rxbStep b s := by
  obtain ⟨enabled, ht⟩ := enabled_of_next h
  obtain ⟨hph, hrxn⟩ := (rxEnabled_iff _).1 enabled
  exact ⟨hph, hrxn, ht⟩

theorem exec_rxend_eq_next {s t : State} (h : exec .rxend s = .next t) : s.afu.ph = .rx ∧ t = rxendStep s :=
  enabled_of_next h

/-- A read of the response writes no register, answered or refused (R123, R124, R126). -/
@[simp] theorem readStep_afu (v : BitVec 24) (s : State) : (readStep v s).afu = s.afu := by
  rcases readStep_cases v s with ⟨-, e⟩ | ⟨-, e⟩ <;> rw [e] <;> rfl

/-- Five operations write registers of the block, each from the phases where R32 enables it; every other instruction that is no
verb leaves the registers as they are, and so does a refused BUILD or START (R33). -/
theorem exec_afu_cases {i : Instr} {s t : State} (block : isVerb i = false) (h : exec i s = .next t) :
    t.afu = s.afu ∨
    (∃ u c p d, i = .build u c p d ∧ s.afu.ph ≠ .tx ∧ s.afu.ph ≠ .rx ∧
      t = { s with afu := s.afu.load (build u c p d), ports := Ports.idle }) ∨
    (i = .start ∧ s.afu.ph = .loaded ∧ t = opened s) ∨
    (i = .txb ∧ s.afu.ph = .tx ∧ s.afu.txi.toNat < 8 ∧ t = txbStep s) ∨
    (∃ b, i = .rxb b ∧ s.afu.ph = .rx ∧ s.afu.rxn.toNat < 8 ∧ t = rxbStep b s) ∨
    (i = .rxend ∧ s.afu.ph = .rx ∧ t = rxendStep s) := by
  cases i
  case build u c p d =>
    obtain rfl : buildStep u c p d s = t := Host.Outcome.next.inj h
    rcases buildStep_cases u c p d s with ⟨-, refused⟩ | ⟨htx, hrx, loads⟩
    · exact .inl (by rw [refused, refuse_afu])
    · exact .inr (.inl ⟨u, c, p, d, rfl, htx, hrx, loads⟩)
  case start =>
    obtain rfl : startStep s = t := Host.Outcome.next.inj h
    rcases startStep_cases s with ⟨loaded, opens⟩ | ⟨-, refused⟩
    · exact .inr (.inr (.inl ⟨rfl, loaded, opens⟩))
    · exact .inl (by rw [refused, refuse_afu])
  case txb => exact .inr (.inr (.inr (.inl ⟨rfl, exec_txb_eq_next h⟩)))
  case rxb b => exact .inr (.inr (.inr (.inr (.inl ⟨b, rfl, exec_rxb_eq_next h⟩))))
  case rxend => exact .inr (.inr (.inr (.inr (.inr ⟨rfl, exec_rxend_eq_next h⟩))))
  case getdata | getb | sigcmp =>
    obtain rfl := Host.Outcome.next.inj h
    exact .inl (readStep_afu _ s)
  case getstat | cksum | ckvalid | validate | frame | illegal0 | illegal7 | illegalB | illegalC | illegalD | illegalE |
      illegalF =>
    obtain rfl := Host.Outcome.next.inj h
    exact .inl rfl
  case getParam | setParam | move | state | reset | echo | stop | enableTracking | result => cases block

/-- Settles O39: of the operations that write registers START alone ends in TX from another phase, and `opened s` has the flush
and the empty buffers; TXB, which can stay in TX, starts there. -/
theorem onlyStartEntersTxAndItFlushes : Obligations.OnlyStartEntersTxAndItFlushes := by
  intro i s t block completes outside inside
  rcases exec_afu_cases block completes with same | ⟨u, c, p, d, -, -, -, rfl⟩ | ⟨start, -, rfl⟩ | ⟨-, sending, -⟩ |
    ⟨b, -, -, -, rfl⟩ | ⟨-, -, rfl⟩
  · exact absurd (same ▸ inside) outside
  · cases inside
  · exact ⟨start, rfl, rfl, rfl⟩
  · exact absurd sending outside
  · exact absurd inside outside
  · cases inside

end Sys2Proof.Machine
end

section
/-! PROOF. No decode after a failed validation: the outcome RXEND records shuts the reads of the response
(spec/70_reset_and_hazards.md R199). -/

namespace Sys2Proof.Machine

/-- Whatever the phase, a read of the response is refused while `RES` is not OK. -/
theorem exec_read_of_res_ne_ok {s : State} (failed : s.afu.res ≠ .ok) {i : BitVec 3} {op : Instr}
    (hop : op ∈ [Instr.getdata, Instr.getb i, Instr.sigcmp]) : exec op s = .next (refuse s) :=
  exec_read_of_not_readable ((not_readable_iff s.afu).2 (.inr failed)) hop

/-- `RES` after RXEND is the outcome of validating the bytes collected (R111). -/
theorem rxendStep_res (s : State) :
    (rxendStep s).afu.res = (validate s.afu.txf (s.afu.rxf.toList.take s.afu.rxn.toNat)).1 := by
  rw [← memRead_zero]
  rfl

/-- Settles O19: by `rxendStep_res` a failed validation leaves `RES` other than OK, and then `exec_read_of_res_ne_ok` refuses all
three reads. -/
theorem noDecodeAfterFailedValidation : Obligations.NoDecodeAfterFailedValidation := by
  refine ⟨fun s t completes failed i op hop => ?_, fun s failed i op hop => ?_⟩
  · obtain ⟨-, rfl⟩ := exec_rxend_eq_next completes
    exact ⟨_, exec_read_of_res_ne_ok (rxendStep_res s ▸ failed) hop, rfl, rfl, rfl, rfl⟩
  · exact ⟨_, exec_read_of_res_ne_ok failed hop, rfl, rfl, rfl, rfl⟩

end Sys2Proof.Machine
end

section
/-! PROOF. Decoding undoes encoding, from the port event and from the table word, and yields well-formed instructions alone
(spec/30_encoding.md sections 1 and 3). -/

namespace Sys2Proof.Machine

theorem decodeWire_of_length_eq {bytes : List Byte} (h : bytes.length = 8) : decodeWire bytes = .ok (.frame bytes) :=
  if_pos h

theorem decodeWire_of_length_ne {bytes : List Byte} (h : bytes.length ≠ 8) :
    decodeWire bytes = .error (.frameLength bytes.length) :=
  if_neg h

/-- Every operand has its own port or argument, so only a frame, whose length no type bounds, needs the hypothesis. -/
theorem decode_encode {i : Instr} (h : i.wellFormed = true) : decode (encode i) = .ok i := by
  cases i with
  | frame bytes => exact decodeWire_of_length_eq (by simpa [Instr.wellFormed, Config.frameLen] using h)
  | _ => rfl

theorem decodeHost_wellFormed (p : HostPorts) : (decodeHost p).wellFormed = true := by
  unfold decodeHost
  split <;> rfl

theorem wellFormed_of_decodeCall {v : Verb} {args : List Arg} {i : Instr} (h : decodeCall v args = .ok i) :
    i.wellFormed = true := by
  unfold decodeCall at h
  split at h <;> cases h <;> rfl

theorem wellFormed_of_decodeWire {bytes : List Byte} {i : Instr} (h : decodeWire bytes = .ok i) : i.wellFormed = true := by
  by_cases eight : bytes.length = 8
  · rw [decodeWire_of_length_eq eight] at h
    cases h
    exact beq_iff_eq.2 eight
  · rw [decodeWire_of_length_ne eight] at h
    cases h

theorem wellFormed_of_decode {e : PortEvent} {i : Instr} (h : decode e = .ok i) : i.wellFormed = true := by
  cases e with
  | host p =>
    cases h
    exact decodeHost_wellFormed p
  | tx =>
    cases h
    rfl
  | rx rxEnd rxByte => cases rxEnd <;> cases h <;> rfl
  | call v args => exact wellFormed_of_decodeCall h
  | wire bytes => exact wellFormed_of_decodeWire h

/-- Settles O22: `decode_encode`, and `wellFormed_of_decode` port by port. -/
theorem decodeOfEncode : Obligations.DecodeOfEncode :=
  ⟨fun _ => decode_encode, fun _ _ => wellFormed_of_decode⟩

/-- The big-endian bytes of the number of a byte string are the byte string (R60). -/
theorem bytesOf_numberOf (bytes : List Byte) : bytesOf bytes.length (numberOf bytes) = bytes := by
  induction bytes using List.reverseRecOn with
  | nil => rfl
  | append_singleton bytes b ih =>
    have := b.isLt
    have number : numberOf (bytes ++ [b]) = numberOf bytes * 256 + b.toNat := by simp [numberOf]
    have high : (numberOf bytes * 256 + b.toNat) / 256 = numberOf bytes := by omega
    have low : BitVec.ofNat 8 (numberOf bytes * 256 + b.toNat) = b := by
      apply BitVec.eq_of_toNat_eq
      rw [BitVec.toNat_ofNat]
      omega
    rw [List.length_append, List.length_singleton, bytesOf, number, high, low, ih]

/-- BUILD's word of R67: the select code on top, then the four operands in their order. -/
theorem tableEvent_build (u c p : Byte) (d : Half) :
    tableEvent 48 (0x1#4 ++ u ++ c ++ p ++ d).toNat = encode (.build u c p d) := by
  have select : (0x1#4 ++ u ++ c ++ p ++ d).toNat / 2 ^ 40 = 1 := by
    have := u.isLt
    have := c.isLt
    have := p.isLt
    have := d.isLt
    simp only [append_toNat, BitVec.toNat_ofNat]
    omega
  have word : BitVec.ofNat 44 (0x1#4 ++ u ++ c ++ p ++ d).toNat = 0x1#4 ++ u ++ c ++ p ++ d := by
    rw [BitVec.ofNat_toNat, BitVec.setWidth_eq]
  have hop : (0x1#4 ++ u ++ c ++ p ++ d).extractLsb' 40 4 = 0x1#4 := by
    rw [extract_append_high _ _ 24 4, extract_append_high _ _ 16 4, extract_append_high _ _ 8 4, extract_append_high _ _ 0 4,
      extract_self]
  have hunit : (0x1#4 ++ u ++ c ++ p ++ d).extractLsb' 32 8 = u := by
    rw [extract_append_high _ _ 16 8, extract_append_high _ _ 8 8, extract_append_high _ _ 0 8, extract_append_low]
  have hcmd : (0x1#4 ++ u ++ c ++ p ++ d).extractLsb' 24 8 = c := by
    rw [extract_append_high _ _ 8 8, extract_append_high _ _ 0 8, extract_append_low]
  have hpar : (0x1#4 ++ u ++ c ++ p ++ d).extractLsb' 16 8 = p := by
    rw [extract_append_high _ _ 0 8, extract_append_low]
  have hdata : (0x1#4 ++ u ++ c ++ p ++ d).extractLsb' 0 16 = d := extract_append_low _ _
  calc tableEvent 48 (0x1#4 ++ u ++ c ++ p ++ d).toNat
      = .host (buildWord (BitVec.ofNat 44 (0x1#4 ++ u ++ c ++ p ++ d).toNat)) := if_pos select
    _ = encode (.build u c p d) := by
      rw [word, buildWord, hop, hunit, hcmd, hpar, hdata]
      rfl

/-- GETB's word of R67: the select code, then the index. -/
theorem tableEvent_getb (i : BitVec 3) : tableEvent 8 (0x5#4 ++ i).toNat = encode (.getb i) := by
  have := i.isLt
  have value : (0x5#4 ++ i).toNat = 40 + i.toNat := append_toNat _ _
  have word : BitVec.ofNat 7 (0x5#4 ++ i).toNat = 0x5#4 ++ i := by rw [BitVec.ofNat_toNat, BitVec.setWidth_eq]
  have hop : (0x5#4 ++ i).extractLsb' 3 4 = 0x5#4 := by rw [extract_append_high _ _ 0 4, extract_self]
  have hidx : (0x5#4 ++ i).extractLsb' 0 3 = i := extract_append_low _ _
  calc tableEvent 8 (0x5#4 ++ i).toNat
      = .host (getbWord (BitVec.ofNat 7 (0x5#4 ++ i).toNat)) := by
        rw [tableEvent, if_pos (by decide), if_neg (by omega), if_pos (by omega)]
    _ = encode (.getb i) := by
      rw [word, getbWord, hop, hidx]
      rfl

/-- RXB's nine bits: `rx_end` = 0 above the byte (R66). -/
theorem tableEvent_rxb (b : Byte) : tableEvent 16 (0#1 ++ b).toNat = encode (.rxb b) := by
  have value : (0#1 ++ b).toNat = b.toNat := by rw [append_toNat, BitVec.toNat_ofNat]; omega
  have := b.isLt
  rw [value, tableEvent, if_neg (by decide), if_pos (by decide), if_pos (by omega), Nat.testBit_lt_two_pow b.isLt,
    BitVec.ofNat_toNat, BitVec.setWidth_eq]
  rfl

/-- A table word stands for the port event that issues its instruction. -/
theorem tableEvent_tableWord {i : Instr} {n w : Nat} (wf : i.wellFormed = true) (h : tableWord i = some (n, w)) :
    tableEvent n w = encode i := by
  cases i
  case build u c p d =>
    cases h
    exact tableEvent_build u c p d
  case getb i =>
    cases h
    exact tableEvent_getb i
  case rxb b =>
    cases h
    exact tableEvent_rxb b
  case frame bytes =>
    cases h
    have eight : bytes.length = 8 := by simpa [Instr.wellFormed, Config.frameLen] using wf
    have round := bytesOf_numberOf bytes
    rw [eight] at round
    exact congrArg PortEvent.wire round
  case start | getstat | getdata | sigcmp | rxend | illegal0 | illegal7 | illegalB | illegalC | illegalD | illegalE | illegalF =>
    cases h
    rfl
  case cksum | ckvalid | validate | txb | getParam | setParam | move | state | reset | echo | stop | enableTracking | result =>
    cases h

theorem decodeTableWord_eq_some {n w : Nat} {i : Instr} :
    decodeTableWord n w = some i ↔ decode (tableEvent n w) = .ok i := by
  unfold decodeTableWord
  split <;> simp [*]

/-- Settles O23: by `tableEvent_tableWord` the word is the encoded port event, which `decode_encode` reads back. -/
theorem tableWordsDecode : Obligations.TableWordsDecode := by
  intro i n w wf h
  rw [decodeTableWord_eq_some, tableEvent_tableWord wf h]
  exact decode_encode wf

/-- Settles O24: the arm that the common select code picks reads the named ports alone. -/
theorem unnamedPortsAreIgnored : Obligations.UnnamedPortsAreIgnored := by
  intro p q hop build getb fin validate
  have code : ∀ {op : BitVec 4}, p.op.toNat = op.toNat → p.op = op := BitVec.eq_of_toNat_eq
  unfold decodeHost
  rw [← hop]
  split
  -- the arms of BUILD, GETB, CKSUM, CKVALID and VALIDATE; the others name no port
  case h_2 h =>
    obtain ⟨hunit, hcmd, hpar, hdata⟩ := build (code h)
    rw [hunit, hcmd, hpar, hdata]
  case h_6 h => rw [getb (code h)]
  case h_9 h => rw [fin (.inl (code h))]
  case h_10 h => rw [fin (.inr (.inl (code h)))]
  case h_11 h =>
    obtain ⟨hfin2, hcount⟩ := validate (code h)
    rw [fin (.inr (.inr (code h))), hfin2, hcount]
  all_goals rfl

/-- Settles O25: each word is the table word of its instruction. -/
theorem wordsOfTheSpecDecode : Obligations.WordsOfTheSpecDecode := by
  refine ⟨?_, ?_, ?_, ?_, ?_, ?_, ?_⟩ <;> exact tableWordsDecode _ _ _ rfl rfl

end Sys2Proof.Machine
end

section
/-! PROOF. The operations of the block one by one: the answers that write nothing, and the steps of the AFU and the CHANNEL on
both sides of their enabling (spec/40_checksum.md, spec/41_serializer.md section 2, spec/42_deserializer.md section 1). -/

namespace Sys2Proof.Machine

/-- CKSUM answers the checksum of the first seven bytes its port carries, whatever the state (R82; log 26). -/
theorem exec_cksum (fin : BitVec 64) (s : State) :
    exec (.cksum fin) s = .next (answer ((cksum ((frameOfPort fin).toList.take 7)).setWidth 24) s) := by
  rw [← memRead_zero]
  rfl

/-- Settles O6: `exec_cksum` on the unpacked port; a byte fits in `out`. -/
theorem cksumAnswersTheChecksum : Obligations.CksumAnswersTheChecksum := by
  refine ⟨fun _ => decode_host_of_op, fun b0 b1 b2 b3 b4 b5 b6 b7 s => ⟨_, exec_cksum _ s, ?_, rfl, rfl, rfl, rfl, rfl⟩⟩
  rw [answer_ports, BitVec.toNat_setWidth_of_le (by decide), frameOfPort_append]
  rfl

/-- TXB's writes in TX, with the count as a number (R98). -/
theorem Afu.sent_eq {a : Afu} (h : a.ph = .tx) :
    a.sent = { a with txi := a.sent.txi, ph := if a.txi.toNat = 7 then .rx else .tx } := by
  have eighth : a.txi = 7 ↔ a.txi.toNat = 7 := (BitVec.toNat_inj (y := 7#4)).symm
  simp only [Afu.sent, eighth, h]

theorem exec_txb_of_not_enabled {s : State} (h : s.afu.ph ≠ .tx ∨ 8 ≤ s.afu.txi.toNat) :
    exec .txb s = .refused .stepNotEnabled := by
  have off : ¬ s.afu.txEnabled = true := by
    rw [txEnabled_iff]
    rintro ⟨htx, hlt⟩
    exact h.elim (· htx) (by omega)
  exact if_neg off

/-- Settles O10: where TXB is enabled the state is `txbStep s`, which is the own move too. -/
theorem txbEmitsTheNextByte : Obligations.TxbEmitsTheNextByte := by
  refine fun s => ⟨fun htx hlt => ?_, exec_txb_of_not_enabled, fun htx hlt quiet => ?_⟩
  · have byte := txNext_eq s.afu hlt
    refine ⟨_, exec_txb_of_enabled htx hlt, byte, ?_, Afu.sent_eq htx, succ_toNat _ hlt, rfl, rfl, rfl, rfl⟩
    rw [← byte]
    rfl
  · rw [exec_txb_of_enabled htx hlt]
    exact step_move (.inl htx) quiet (ownMove_tx s htx hlt)

theorem exec_rxb_of_not_enabled {s : State} (h : s.afu.ph ≠ .rx ∨ 8 ≤ s.afu.rxn.toNat) (b : Byte) :
    exec (.rxb b) s = .refused .stepNotEnabled := by
  have off : ¬ s.afu.rxEnabled = true := by
    rw [rxEnabled_iff]
    rintro ⟨hrx, hlt⟩
    exact h.elim (· hrx) (by omega)
  exact if_neg off

theorem exec_rxend_of_not_enabled {s : State} (h : s.afu.ph ≠ .rx) : exec .rxend s = .refused .stepNotEnabled :=
  if_neg h

/-- RXB puts the byte at `RXN` (R110). -/
theorem rxbStep_rxf_toList (b : Byte) (s : State) :
    (rxbStep b s).afu.rxf.toList = s.afu.rxf.toList.set s.afu.rxn.toNat b :=
  Vector.toList_setIfInBounds

/-- With eight bytes the machine left alone takes RXEND (R111; log 19). -/
theorem step_full {s : State} (h : s.afu.ph = .rx) (hn : 8 ≤ s.afu.rxn.toNat) (quiet : s.feed = []) :
    step s = .next (rxendStep s) :=
  step_move (.inr h) quiet (ownMove_full s h hn)

/-- Settles O13: `rxbStep b s` where RXB is enabled; at eight bytes the own move is RXEND, which leaves the channel alone. -/
theorem rxbStoresTheByte : Obligations.RxbStoresTheByte := by
  refine ⟨fun _ => rfl, fun b s =>
    ⟨fun hrx hlt => ?_, fun off => exec_rxb_of_not_enabled off b, fun hrx full quiet => ?_⟩⟩
  · exact ⟨_, exec_rxb_of_enabled hrx hlt b, rxbStep_rxf_toList b s, succ_toNat _ hlt, rfl, rfl, rfl, rfl, rfl, rfl, rfl⟩
  · exact ⟨_, step_full hrx full quiet, rfl⟩

/-- Settles O14: `rxendStep s` in RX, which is the own move at eight bytes. -/
theorem rxendClosesAndValidates : Obligations.RxendClosesAndValidates := by
  refine ⟨fun _ => rfl, fun s =>
    ⟨fun hrx => ?_, exec_rxend_of_not_enabled, fun hrx full => ⟨fun b => ?_, fun quiet => ?_⟩⟩⟩
  · refine ⟨_, exec_rxend_of_enabled hrx, ?_, rfl, rfl, rfl, rfl, rfl, rfl⟩
    rw [← memRead_zero]
    rfl
  · exact exec_rxb_of_not_enabled (.inr full.ge) b
  · rw [exec_rxend_of_enabled hrx]
    exact step_full hrx full.ge quiet

/-- Settles O33: the channel's choice is the oldest held byte. -/
theorem heldBytesAreDeliveredInOrder : Obligations.HeldBytesAreDeliveredInOrder := by
  intro s b held hrx hlt quiet hin
  have choice : ownMove s = some (rxbStep b s) := by rw [ownMove_rx s hrx hlt, channelMove, hin]
  have delivered : step s = .next (rxbStep b s) := step_move (.inr hrx) quiet choice
  exact ⟨by rw [delivered, exec_rxb_of_enabled hrx hlt], _, delivered, Channel.read_head _ _ _ hin, rxbStep_rxf_toList b s,
    succ_toNat _ hlt⟩

/-- Settles O32: `execFrame` is `arriveStep`, which writes the input buffer and the outputs alone. -/
theorem frameReachesTheChannel : Obligations.FrameReachesTheChannel :=
  fun bytes s _ => ⟨arriveStep bytes s, rfl, rfl, rfl, rfl, rfl, rfl, rfl⟩

/-- Settles O21: a built frame has the two halves of its data at offsets 4 and 5, and joining undoes splitting. -/
theorem dataFieldIsBigEndian : Obligations.DataFieldIsBigEndian := by
  refine ⟨fun u c p d => ⟨?_, cat16_hi8_lo8 d⟩, fun f => ⟨cat16_toNat _ _, hi8_cat16 _ _, lo8_cat16 _ _⟩⟩
  calc 256 * (build u c p d)[4].toNat + (build u c p d)[5].toNat
      = 256 * (hi8 d).toNat + (lo8 d).toNat := rfl
    _ = d.toNat := by rw [← cat16_toNat, cat16_hi8_lo8]

/-- What a read of the response shows at the outputs (R123, R124, R126). -/
def readPorts (a : Afu) (v : BitVec 24) : Ports :=
  if a.readable then { Ports.idle with out := v } else { Ports.idle with refused := true }

theorem readStep_eq_readPorts (v : BitVec 24) (s : State) : readStep v s = { s with ports := readPorts s.afu v } := by
  unfold readStep readPorts
  split <;> rfl

/-- A read and a pure operation set the outputs to a function of the registers, and nothing else (R51). -/
theorem exec_eq_ports_of_afu {j : BitVec 3} {f g : BitVec 64} {n : BitVec 4} {op : Instr}
    (hop : op ∈ [Instr.getstat, .getdata, .getb j, .sigcmp, .cksum f, .ckvalid f, .validate f g n]) :
    ∃ shown : Afu → Ports, ∀ s, exec op s = .next { s with ports := shown s.afu } := by
  simp only [List.mem_cons, List.not_mem_nil, or_false] at hop
  rcases hop with rfl | rfl | rfl | rfl | rfl | rfl | rfl
  · exact ⟨fun a => { Ports.idle with out := a.status }, fun _ => rfl⟩
  · exact ⟨fun a => readPorts a ((data16 a.rxf).setWidth 24), fun s => congrArg _ (readStep_eq_readPorts _ s)⟩
  · exact ⟨fun a => readPorts a ((a.rxf[j.toNat]'j.isLt).setWidth 24), fun s => congrArg _ (readStep_eq_readPorts _ s)⟩
  · exact ⟨fun a => readPorts a (flagWord (sigmatch a.rxf)), fun s => congrArg _ (readStep_eq_readPorts _ s)⟩
  · exact ⟨fun _ => { Ports.idle with out := _ }, fun _ => rfl⟩
  · exact ⟨fun _ => { Ports.idle with out := _ }, fun _ => rfl⟩
  · exact ⟨fun _ => { Ports.idle with out := _ }, fun _ => rfl⟩

/-- Settles O41: the registers are the same at the second issue, so the outputs are. -/
theorem readsAndPureOperationsRepeat : Obligations.ReadsAndPureOperationsRepeat := by
  intro s j f g n op hop
  obtain ⟨shown, completes⟩ := exec_eq_ports_of_afu hop
  exact ⟨_, completes s, rfl, completes _⟩

end Sys2Proof.Machine
end

section
/-! PROOF. The sequencing table: which operation completes in which phase, and how the others are turned away
(spec/10_state.md R32, R33). -/

namespace Sys2Proof.Machine

/-- An operation that the table enables completes, unrefused, in the phase the table gives. -/
theorem exec_of_enabledByTable {i : Instr} {s : State} (h : enabledByTable i s.afu = true) :
    ∃ t, exec i s = .next t ∧ t.ports.refused = false ∧ t.afu.ph = phaseByTable i s.afu := by
  cases i
  case build u c p d =>
    obtain ⟨htx, hrx⟩ : s.afu.ph ≠ .tx ∧ s.afu.ph ≠ .rx := by
      constructor <;> intro busy <;> simp [enabledByTable, busy] at h
    exact ⟨_, exec_build_of_not_busy htx hrx u c p d, rfl, rfl⟩
  case start => exact ⟨_, exec_start_of_loaded (beq_iff_eq.1 h), rfl, rfl⟩
  case txb =>
    obtain ⟨htx, hlt⟩ := (txEnabled_iff _).1 h
    have phase := congrArg Afu.ph (Afu.sent_eq htx)
    exact ⟨_, exec_txb_of_enabled htx hlt, rfl, by rw [phaseByTable, htx]; exact phase⟩
  case rxb b =>
    obtain ⟨hrx, hlt⟩ := (rxEnabled_iff _).1 h
    exact ⟨_, exec_rxb_of_enabled hrx hlt b, rfl, rfl⟩
  case rxend => exact ⟨_, exec_rxend_of_enabled (beq_iff_eq.1 h), rfl, rfl⟩
  case getdata => exact ⟨_, exec_getdata_of_readable h, rfl, rfl⟩
  case getb j => exact ⟨_, exec_getb_of_readable h j, rfl, rfl⟩
  case sigcmp => exact ⟨_, exec_sigcmp_of_readable h, rfl, rfl⟩
  case getstat | cksum | ckvalid | validate => exact ⟨_, rfl, rfl, rfl⟩
  case illegal0 | illegal7 | illegalB | illegalC | illegalD | illegalE | illegalF | frame => cases h
  case getParam | setParam | move | state | reset | echo | stop | enableTracking | result => cases h

/-- A host operation that the table does not enable is refused. -/
theorem exec_host_of_not_enabledByTable {i : Instr} {s : State} (block : isVerb i = false) (host : i.agent = .host)
    (h : enabledByTable i s.afu = false) : exec i s = .next (refuse s) := by
  cases i
  case build u c p d =>
    apply exec_build_of_busy
    cases hph : s.afu.ph <;> simp [enabledByTable, hph] at h ⊢
  case start => exact exec_start_of_not_loaded (beq_eq_false_iff_ne.1 h)
  case getdata | sigcmp => exact exec_read_of_not_readable (i := 0) h (by simp)
  case getb j => exact exec_read_of_not_readable (i := j) h (by simp)
  case illegal0 | illegal7 | illegalB | illegalC | illegalD | illegalE | illegalF => rfl
  case getstat | cksum | ckvalid | validate => cases h
  case txb | rxb | rxend | frame => cases host
  case getParam | setParam | move | state | reset | echo | stop | enableTracking | result => cases block

/-- A step of the AFU or the CHANNEL that the table does not enable does not exist (log 9). -/
theorem exec_agent_of_not_enabledByTable {i : Instr} {s : State} (wire : i.agent ≠ .wire) (host : i.agent ≠ .host)
    (h : enabledByTable i s.afu = false) : exec i s = .refused .stepNotEnabled := by
  cases i
  case txb => exact if_neg (Bool.eq_false_iff.1 h)
  case rxb b => exact if_neg (Bool.eq_false_iff.1 h)
  case rxend => exact exec_rxend_of_not_enabled (beq_eq_false_iff_ne.1 h)
  case frame => exact absurd rfl wire
  all_goals exact absurd rfl host

/-- Settles O26: the three lemmas of the table, RXEND at eight bytes, and answers that write nothing. -/
theorem sequencingFollowsTheTable : Obligations.SequencingFollowsTheTable := by
  refine ⟨fun i s block wire => ⟨exec_of_enabledByTable, fun off host => ?_, fun off host => ?_⟩,
    fun s hrx full quiet => ?_, fun s f g n op hop => ?_⟩
  · exact ⟨_, exec_host_of_not_enabledByTable block host off, rfl, rfl, rfl, rfl, rfl, rfl, rfl⟩
  · exact exec_agent_of_not_enabledByTable wire host off
  · rw [exec_rxend_of_enabled hrx]
    exact step_full hrx (by rw [full]; decide) quiet
  · simp only [List.mem_cons, List.not_mem_nil, or_false] at hop
    rcases hop with rfl | rfl | rfl | rfl <;> exact ⟨_, rfl, rfl, rfl⟩

end Sys2Proof.Machine
end

section
/-! PROOF. One step: what it does for each input that can come, and its inversion; what each agent's move leaves alone
(spec/20_memory.md section 6, spec/70_reset_and_hazards.md section 1). -/

namespace Sys2Proof.Machine

theorem takeInput_port {s : State} {e : PortEvent} {rest : List Input} {i : Instr} (hf : s.feed = .port e :: rest)
    (hd : decode e = .ok i) : takeInput s = exec i { s with feed := rest } := by
  simp only [takeInput, hf, hd]

theorem takeInput_undecodable {s : State} {e : PortEvent} {rest : List Input} {err : DecodeError}
    (hf : s.feed = .port e :: rest) (hd : decode e = .error err) : takeInput s = .refused (.undecodable err) := by
  simp only [takeInput, hf, hd]

theorem takeInput_arrive {s : State} {b : Byte} {rest : List Input} (hf : s.feed = .arrive b :: rest) :
    takeInput s = .next (arriveStep [b] { s with feed := rest }) := by
  simp only [takeInput, hf]

theorem takeInput_reset {s : State} {rest : List Input} (hf : s.feed = .resetInput :: rest) :
    takeInput s = .next (resetStep { s with feed := rest }) := by
  simp only [takeInput, hf]

theorem takeInput_nil {s : State} (hf : s.feed = []) : takeInput s = .next (ownStep s) := by
  simp only [takeInput, hf]

/-- The reset input does not wait for the host's turn (R190; log 27). -/
theorem step_reset {s : State} {rest : List Input} (hf : s.feed = .resetInput :: rest) :
    step s = .next (resetStep { s with feed := rest }) := by
  rw [step, if_pos (by rw [hf]; rfl), takeInput_reset hf]

theorem step_port {s : State} {e : PortEvent} {rest : List Input} {i : Instr} (noTurn : hostTurn s = none)
    (hf : s.feed = .port e :: rest) (hd : decode e = .ok i) : step s = exec i { s with feed := rest } := by
  rw [step_noTurn s noTurn, takeInput_port hf hd]

/-- Settles O28: the step is `resetStep`; after it the status is that of the reset registers, and IDLE enables neither START nor a
read. -/
theorem resetEventInAnyPhase : Obligations.ResetEventInAnyPhase := by
  intro s rest hf
  refine ⟨_, step_reset hf, rfl, rfl, rfl, rfl, rfl, rfl, rfl, rfl, rfl, ⟨_, exec_getstat _, Afu.reset_status, rfl⟩,
    fun i op hop => ?_⟩
  rcases List.mem_cons.1 hop with rfl | read
  · exact ⟨_, exec_start_of_not_loaded (by simp [Afu.reset]), rfl, rfl, rfl⟩
  · exact ⟨_, exec_read_of_not_readable rfl read, rfl, rfl, rfl⟩

/-- Settles O29: `step_port`. -/
theorem stepRunsTheDecodedInstruction : Obligations.StepRunsTheDecodedInstruction :=
  fun _ _ _ _ => step_port

/-- Whether the host has a turn does not depend on the inputs to come (log 27). -/
theorem hostTurn_feed {s : State} (h : hostTurn s = none) (feed : List Input) : hostTurn { s with feed := feed } = none := by
  by_contra turn
  obtain ⟨t, ht⟩ := Option.ne_none_iff_exists'.1 turn
  obtain ⟨htx, hrx, ⟨c, hc, due, -⟩ | ⟨v, rest, hc, hp, -⟩⟩ := hostTurn_cases ht
  · rw [hostTurn_due s c htx hrx hc due] at h
    cases h
  · rw [hostTurn_begin s v rest htx hrx hc hp] at h
    cases h

/-- A port event put before the inputs runs next, on the state itself, where the host has no turn. -/
theorem step_cons_port {s : State} {e : PortEvent} {i : Instr} (noTurn : hostTurn s = none) (hd : decode e = .ok i) :
    step { s with feed := .port e :: s.feed } = exec i s :=
  step_port (hostTurn_feed noTurn _) rfl hd

/-- Settles O30: the word's event stands before the inputs of a state whose host has no turn, the freed one where it had one. -/
theorem fetchedWordRunsNext : Obligations.FetchedWordRunsNext := by
  intro s n w i hd
  rw [decodeTableWord_eq_some] at hd
  refine ⟨fun noTurn => ?_, fun turn => ?_⟩
  · rw [State.withFetchWord, noTurn]
    exact step_cons_port noTurn hd
  · rw [State.withFetchWord, if_pos (Option.isSome_iff_ne_none.2 turn)]
    exact step_cons_port (hostTurn_free s.freeHost rfl rfl) hd

/-- Settles O31: `takeInput_arrive`, and `takeInput_undecodable` with the length that the decoder names. -/
theorem inputsThatAreNoInstruction : Obligations.InputsThatAreNoInstruction := by
  refine ⟨fun s b rest noTurn hf => ?_, fun s bytes rest noTurn hf other => ?_⟩
  · exact ⟨_, (step_noTurn s noTurn).trans (takeInput_arrive hf), rfl, rfl, rfl, rfl⟩
  · rw [step_noTurn s noTurn, takeInput_undecodable hf (decodeWire_of_length_ne other)]

/-- What a completed step was: the host's own turn, an instruction that came, a byte, the reset input, or the agents' own step. -/
theorem step_eq_next {s t : State} (h : step s = .next t) :
    hostTurn s = some t ∨
    (hostTurn s = none ∧ ∃ i rest, exec i { s with feed := rest } = .next t) ∨
    (∃ b rest, t = arriveStep [b] { s with feed := rest }) ∨
    (∃ rest, t = resetStep { s with feed := rest }) ∨
    (hostTurn s = none ∧ t = ownStep s) := by
  rcases step_cases s with ⟨u, turn, -, e⟩ | ⟨order, e⟩
  · rw [e] at h
    cases h
    exact .inl turn
  rw [e] at h
  cases hf : s.feed with
  | nil =>
    rw [takeInput_nil hf] at h
    cases h
    exact .inr (.inr (.inr (.inr ⟨by simpa [hf] using order, rfl⟩)))
  | cons input rest =>
    cases input with
    | port ev =>
      cases hd : decode ev with
      | error err =>
        rw [takeInput_undecodable hf hd] at h
        cases h
      | ok i =>
        rw [takeInput_port hf hd] at h
        exact .inr (.inl ⟨by simpa [hf] using order, i, rest, h⟩)
    | arrive b =>
      rw [takeInput_arrive hf] at h
      cases h
      exact .inr (.inr (.inl ⟨b, rest, rfl⟩))
    | resetInput =>
      rw [takeInput_reset hf] at h
      cases h
      exact .inr (.inr (.inr (.inl ⟨rest, rfl⟩)))

/-- An own move of the AFU or the CHANNEL is TXB, RXB or RXEND where it is enabled, the last two after the channel's plan may have
moved on (R32, R112). -/
theorem ownMove_cases {s t : State} (h : ownMove s = some t) :
    (s.afu.ph = .tx ∧ s.afu.txi.toNat < 8 ∧ t = txbStep s) ∨
    (s.afu.ph = .rx ∧ ∃ coming, (∃ b, t = rxbStep b { s with chan := { s.chan with coming := coming } }) ∨
      t = rxendStep { s with chan := { s.chan with coming := coming } }) := by
  unfold ownMove at h
  split at h
  · rename_i enabled
    obtain ⟨htx, hlt⟩ := (txEnabled_iff _).1 enabled
    cases h
    exact .inl ⟨htx, hlt, rfl⟩
  split at h
  · rename_i enabled
    refine .inr ⟨((rxEnabled_iff _).1 enabled).1, ?_⟩
    unfold channelMove at h
    split at h <;> cases h
    · exact ⟨s.chan.coming, .inl ⟨_, rfl⟩⟩
    · exact ⟨_, .inl ⟨_, rfl⟩⟩
    · exact ⟨_, .inr rfl⟩
  split at h <;> cases h
  exact .inr ⟨‹_›, s.chan.coming, .inr rfl⟩

/-- A move of the AFU or the CHANNEL leaves the host alone. -/
theorem ownMove_host {s t : State} (h : ownMove s = some t) : t.host = s.host := by
  rcases ownMove_cases h with ⟨-, -, rfl⟩ | ⟨-, coming, ⟨b, rfl⟩ | rfl⟩ <;> rfl

@[simp] theorem readStep_host (v : BitVec 24) (s : State) : (readStep v s).host = s.host := by rw [readStep_eq_readPorts]
@[simp] theorem readStep_feed (v : BitVec 24) (s : State) : (readStep v s).feed = s.feed := by rw [readStep_eq_readPorts]

/-- An operation of the block leaves the host and the inputs alone. -/
theorem exec_host_feed {i : Instr} {s t : State} (block : isVerb i = false) (h : exec i s = .next t) :
    t.host = s.host ∧ t.feed = s.feed := by
  cases i
  case build u c p d =>
    obtain rfl : buildStep u c p d s = t := Host.Outcome.next.inj h
    rcases buildStep_cases u c p d s with ⟨-, e⟩ | ⟨-, -, e⟩ <;> rw [e] <;> exact ⟨rfl, rfl⟩
  case start =>
    obtain rfl : startStep s = t := Host.Outcome.next.inj h
    rcases startStep_cases s with ⟨-, e⟩ | ⟨-, e⟩ <;> rw [e] <;> exact ⟨rfl, rfl⟩
  case txb =>
    obtain ⟨-, -, rfl⟩ := exec_txb_eq_next h
    exact ⟨rfl, rfl⟩
  case rxb b =>
    obtain ⟨-, -, rfl⟩ := exec_rxb_eq_next h
    exact ⟨rfl, rfl⟩
  case rxend =>
    obtain ⟨-, rfl⟩ := exec_rxend_eq_next h
    exact ⟨rfl, rfl⟩
  case getdata | getb | sigcmp =>
    obtain rfl := Host.Outcome.next.inj h
    exact ⟨readStep_host _ s, readStep_feed _ s⟩
  case getstat | cksum | ckvalid | validate | frame | illegal0 | illegal7 | illegalB | illegalC | illegalD | illegalE |
      illegalF =>
    obtain rfl := Host.Outcome.next.inj h
    exact ⟨rfl, rfl⟩
  case getParam | setParam | move | state | reset | echo | stop | enableTracking | result => cases block

/-- The host's turns go through operations of the block: apart from where the host is in its verb, the state `t` is `s`. -/
def HostMoved (s t : State) : Prop := t = { s with host := { s.host with call := t.host.call, result := t.host.result } }

theorem HostMoved.same {s t : State} (h : HostMoved s t) :
    t.afu = s.afu ∧ t.chan = s.chan ∧ t.ports = s.ports ∧ t.feed = s.feed ∧ t.host.cfg = s.host.cfg ∧
      t.host.pending = s.host.pending := by
  rw [h]
  exact ⟨rfl, rfl, rfl, rfl, rfl, rfl⟩

/-- A look is one GETSTAT (R135). -/
theorem look_moved (k : Reading) (s : State) : HostMoved (getstatStep s) (look k s) := by
  rcases look_cases k s with ⟨-, e⟩ | ⟨-, -, -, e⟩ | ⟨-, -, -, e⟩ | ⟨-, -, e⟩ | ⟨-, -, e⟩ | ⟨-, -, e⟩ <;>
    exact e ▸ rfl

/-- A verb's read of the response is one GETDATA, GETB or SIGCMP (R141, R144, R146). -/
theorem readReply_moved {k : Reading} (hk : k ≠ .nothing) (bytes : List Byte) (s : State) :
    ∃ j : BitVec 3, ∃ op ∈ [Instr.getdata, .getb j, .sigcmp], ∃ v, exec op s = .next v ∧
      HostMoved v (readReply k bytes s) := by
  cases k with
  | data => exact ⟨0, .getdata, by simp, getdataStep s, rfl, rfl⟩
  | signature => exact ⟨0, .sigcmp, by simp, sigcmpStep s, rfl, rfl⟩
  | flags =>
    match bytes with
    | [] => exact ⟨4, .getb 4, by simp, getbStep 4 s, rfl, rfl⟩
    | [_] => exact ⟨5, .getb 5, by simp, getbStep 5 s, rfl, rfl⟩
    | _ :: _ :: _ => exact ⟨6, .getb 6, by simp, getbStep 6 s, rfl, rfl⟩
  | nothing => exact absurd rfl hk

/-- The host's next operation inside a verb is one operation of the block, unless it is a decode where there is nothing to
read. -/
theorem hostOp_cases (c : CallState) (s : State) :
    (∃ j : BitVec 3, ∃ op ∈ [Instr.start, .getstat, .getdata, .getb j, .sigcmp], ∃ v, exec op s = .next v ∧
      HostMoved v (hostOp c s)) ∨
    (∃ k bytes, c = .decoding k bytes ∧ (s.afu.readable = false ∨ k = .nothing) ∧
      (hostOp c s = idle s ∨ hostOp c s = giveBack .done s)) := by
  cases c with
  | built k => exact .inl ⟨0, .start, by simp, startStep s, rfl, rfl⟩
  | waiting k => exact .inl ⟨0, .getstat, by simp, getstatStep s, rfl, look_moved k s⟩
  | decoding k bytes =>
    cases hr : s.afu.readable with
    | false => exact .inr ⟨k, bytes, rfl, .inl rfl, .inl (by simp [hostOp, hr])⟩
    | true =>
      have reads : hostOp (.decoding k bytes) s = readReply k bytes s := if_pos hr
      rw [reads]
      by_cases hk : k = .nothing
      · subst hk
        exact .inr ⟨_, bytes, rfl, .inr rfl, .inr rfl⟩
      · obtain ⟨j, op, hop, v, completes, moved⟩ := readReply_moved hk bytes s
        exact .inl ⟨j, op, List.mem_cons_of_mem _ (List.mem_cons_of_mem _ hop), v, completes, moved⟩

theorem hostOp_frame (c : CallState) (s : State) :
    (hostOp c s).feed = s.feed ∧ (hostOp c s).host.cfg = s.host.cfg ∧ (hostOp c s).host.pending = s.host.pending := by
  rcases hostOp_cases c s with ⟨j, op, hop, v, completes, moved⟩ | ⟨k, bytes, -, -, e | e⟩
  · have block : isVerb op = false := by
      simp only [List.mem_cons, List.not_mem_nil, or_false] at hop
      rcases hop with rfl | rfl | rfl | rfl | rfl <;> rfl
    obtain ⟨hhost, hfeed⟩ := exec_host_feed block completes
    obtain ⟨-, -, -, feed, cfg, pending⟩ := moved.same
    rw [feed, cfg, pending, hhost, hfeed]
    exact ⟨rfl, rfl, rfl⟩
  all_goals
    rw [e]
    exact ⟨rfl, rfl, rfl⟩

@[simp] theorem buildStep_host (u c p : Byte) (d : Half) (s : State) : (buildStep u c p d s).host = s.host :=
  (exec_host_feed (i := .build u c p d) rfl rfl).1

theorem beginVerb_cfg (v : VerbCall) (s : State) : (beginVerb v s).host.cfg = s.host.cfg := by
  rcases beginVerb_cases v (rfl : s.host = s.host) with ⟨k, cmd, par, d, e, -⟩ | ⟨err, e, -⟩
  · rw [e, xchg, goOn_cfg, buildStep_host]
  · rw [e]
    rfl

theorem exec_cfg {i : Instr} {s t : State} (h : exec i s = .next t) : t.host.cfg = s.host.cfg := by
  cases hv : isVerb i with
  | false => rw [(exec_host_feed hv h).1]
  | true =>
    obtain ⟨v, rfl⟩ := (isVerb_iff i).1 hv
    rw [exec_instr] at h
    rcases call_cases v s with ⟨-, e⟩ | ⟨-, e⟩ <;> rw [e] at h <;> cases h
    · exact beginVerb_cfg v s
    · rfl

theorem ownStep_cfg (s : State) : (ownStep s).host.cfg = s.host.cfg := by
  unfold ownStep
  split
  · rw [ownMove_host ‹_›]
  split
  · exact (hostOp_frame _ s).2.1
  · rfl

/-- Settles O42: by inversion of the step, each kind of it keeps the parameters. -/
theorem hostParametersNeverChange : Obligations.HostParametersNeverChange := by
  intro s t h
  rcases step_eq_next h with turn | ⟨-, i, rest, completes⟩ | ⟨b, rest, rfl⟩ | ⟨rest, rfl⟩ | ⟨-, rfl⟩
  · obtain ⟨-, -, ⟨c, -, -, rfl⟩ | ⟨v, rest, -, -, rfl⟩⟩ := hostTurn_cases turn
    · exact (hostOp_frame c s).2.1
    · exact beginVerb_cfg v _
  · exact (exec_cfg completes :)
  · rfl
  · rfl
  · exact ownStep_cfg s

end Sys2Proof.Machine
end

section
/-! PROOF. Every step keeps the invariant of the block and the wire (spec/10_state.md section 7). -/

namespace Sys2Proof.Machine

theorem call_inv (v : VerbCall) {s t : State} (h : s.Inv) (completes : call v s = .next t) : t.Inv := by
  rcases call_cases v s with ⟨-, e⟩ | ⟨-, e⟩ <;> rw [e] at completes <;> cases completes
  · exact beginVerb_inv v h
  · exact h.of_eq rfl rfl

theorem exec_inv {i : Instr} {s t : State} (h : s.Inv) (completes : exec i s = .next t) : t.Inv := by
  cases i
  case build u c p d =>
    obtain rfl := Host.Outcome.next.inj completes
    exact buildStep_inv u c p d h
  case start =>
    obtain rfl := Host.Outcome.next.inj completes
    exact startStep_inv h
  case txb =>
    obtain ⟨htx, hlt, rfl⟩ := exec_txb_eq_next completes
    exact txbStep_inv h htx hlt
  case rxb b =>
    obtain ⟨hrx, hlt, rfl⟩ := exec_rxb_eq_next completes
    exact rxbStep_inv b h hrx hlt
  case rxend =>
    obtain ⟨hrx, rfl⟩ := exec_rxend_eq_next completes
    exact rxendStep_inv h hrx
  case getdata | getb | sigcmp =>
    obtain rfl := Host.Outcome.next.inj completes
    exact readStep_inv h _
  case getstat | cksum | ckvalid | validate | illegal0 | illegal7 | illegalB | illegalC | illegalD | illegalE | illegalF =>
    obtain rfl := Host.Outcome.next.inj completes
    exact h.of_eq rfl rfl
  case frame bytes =>
    obtain rfl := Host.Outcome.next.inj completes
    exact arriveStep_inv bytes h
  case getParam | setParam | move | state | reset | echo | stop | enableTracking | result => exact call_inv _ h completes

/-- Settles O36: by inversion of the step, each kind of it keeps the invariant. -/
theorem stepKeepsTheInvariant : Obligations.StepKeepsTheInvariant := by
  intro s t h completes
  rcases step_eq_next completes with turn | ⟨-, i, rest, completes⟩ | ⟨b, rest, rfl⟩ | ⟨rest, rfl⟩ | ⟨-, rfl⟩
  · exact hostTurn_inv h turn
  · have taken : State.Inv { s with feed := rest } := h.of_eq rfl rfl
    exact exec_inv taken completes
  · exact arriveStep_inv [b] (h.of_eq rfl rfl)
  · exact resetStep_inv _
  · exact ownStep_inv h

/-- Settles O35: the reset event leads to the invariant from every state, and leaves the reset state's block and wire. -/
theorem invariantAtReset : Obligations.InvariantAtReset :=
  ⟨(resetStep_inv State.reset).of_eq rfl rfl, fun _ inside => nomatch inside⟩

end Sys2Proof.Machine
end

section
/-! PROOF. No step tells apart two states that differ in unread buffer bytes alone (spec/10_state.md section 7). -/

namespace Sys2Proof.Machine

/-- The inputs taken off, two states of the invariant that agree still do. -/
theorem Twin.withFeed {s t : State} (h : Twin s t) (feed : List Input) :
    Twin { s with feed := feed } { t with feed := feed } :=
  ⟨h.left.of_eq rfl rfl, h.right.of_eq rfl rfl, h.agree.of_eq rfl rfl h.agree.ports h.agree.chan h.agree.host rfl⟩

theorem call_agree (v : VerbCall) {s t : State} (h : s.Agree t) : sameOutcome State.Agree (call v s) (call v t) := by
  unfold call
  rw [← h.host]
  split
  · exact beginVerb_agree v h
  · exact h.of_eq rfl rfl rfl h.chan (by simp [enqueue, h.host]) h.feed

theorem execTxb_agree {s t : State} (h : s.Agree t) : sameOutcome State.Agree (execTxb s) (execTxb t) := by
  have enabled : t.afu.txEnabled = s.afu.txEnabled := by simp only [Afu.txEnabled, h.afu.ph, h.afu.txi]
  unfold execTxb
  rw [enabled]
  split
  · rename_i on
    exact txbStep_agree h ((txEnabled_iff _).1 on).1
  · exact rfl

theorem execRxb_agree (b : Byte) {s t : State} (h : s.Agree t) : sameOutcome State.Agree (execRxb b s) (execRxb b t) := by
  have enabled : t.afu.rxEnabled = s.afu.rxEnabled := by simp only [Afu.rxEnabled, h.afu.ph, h.afu.rxn]
  unfold execRxb
  rw [enabled]
  split
  · rename_i on
    obtain ⟨hrx, hlt⟩ := (rxEnabled_iff _).1 on
    exact rxbStep_agree b h hrx hlt
  · exact rfl

theorem execRxend_agree {s t : State} (h : s.Agree t) : sameOutcome State.Agree (execRxend s) (execRxend t) := by
  unfold execRxend
  rw [← h.afu.ph]
  split
  · exact rxendStep_agree h ‹_›
  · exact rfl

theorem exec_agree (i : Instr) {s t : State} (h : Twin s t) : sameOutcome State.Agree (exec i s) (exec i t) := by
  cases i
  case build u c p d => exact buildStep_agree h.agree u c p d
  case start => exact startStep_agree h.agree
  case txb => exact execTxb_agree h.agree
  case rxb b => exact execRxb_agree b h.agree
  case rxend => exact execRxend_agree h.agree
  case getstat => exact (getstatStep_twin h).agree
  case getdata => exact readStep_agree h fun f => (data16 f).setWidth 24
  case getb j => exact (getbStep_twin h j).agree
  case sigcmp => exact readStep_agree h fun f => flagWord (sigmatch f)
  case cksum | ckvalid | validate => exact answer_agree h.agree _
  case illegal0 | illegal7 | illegalB | illegalC | illegalD | illegalE | illegalF => exact refuse_agree h.agree
  case frame bytes => exact arriveStep_agree bytes h.agree
  case getParam | setParam | move | state | reset | echo | stop | enableTracking | result => exact call_agree _ h.agree

theorem ownStep_agree {s t : State} (h : Twin s t) : (ownStep s).Agree (ownStep t) := by
  unfold ownStep
  rcases ownMove_agree h.agree with ⟨es, et⟩ | ⟨s', t', es, et, agree⟩ <;> rw [es, et]
  · dsimp only
    rw [← h.agree.host]
    split
    · exact hostOp_agree _ h
    · exact idle_agree h.agree
  · exact agree

theorem takeInput_agree {s t : State} (h : Twin s t) : sameOutcome State.Agree (takeInput s) (takeInput t) := by
  cases hs : s.feed with
  | nil =>
    rw [takeInput_nil hs, takeInput_nil (h.agree.feed ▸ hs)]
    exact ownStep_agree h
  | cons input rest =>
    have ht : t.feed = input :: rest := h.agree.feed ▸ hs
    have taken := h.withFeed rest
    cases input with
    | port e =>
      cases hd : decode e with
      | error err =>
        rw [takeInput_undecodable hs hd, takeInput_undecodable ht hd]
        exact rfl
      | ok i =>
        rw [takeInput_port hs hd, takeInput_port ht hd]
        exact exec_agree i taken
    | arrive b =>
      rw [takeInput_arrive hs, takeInput_arrive ht]
      exact arriveStep_agree [b] taken.agree
    | resetInput =>
      rw [takeInput_reset hs, takeInput_reset ht]
      exact resetStep_agree taken.agree

/-- Settles O37: the host has its turn in both or in neither (`hostTurn_agree`), and the input is the same (`takeInput_agree`). -/
theorem unreadBytesAreNeverSeen : Obligations.UnreadBytesAreNeverSeen := by
  intro s t hs ht agree
  have h : Twin s t := ⟨hs, ht, agree⟩
  unfold step
  rw [← agree.feed]
  split
  · exact takeInput_agree h
  rcases hostTurn_agree h with ⟨es, et⟩ | ⟨s', t', es, et, agree'⟩ <;> rw [es, et]
  · exact takeInput_agree h
  · exact agree'

end Sys2Proof.Machine
end

section
/-! PROOF. Which operation writes the buffers, and which one leaves DONE (spec/10_state.md section 1, spec/60_exceptions.md
section 4). -/

namespace Sys2Proof.Machine

/-- Settles O38: of the operations that write registers BUILD alone writes `TXF` and RXB alone `RXF`, at `RXN`. -/
theorem buffersAreWrittenByBuildAndRxbOnly : Obligations.BuffersAreWrittenByBuildAndRxbOnly := by
  intro i s t block completes
  rcases exec_afu_cases block completes with same | ⟨u, c, p, d, hi, -, -, rfl⟩ | ⟨-, -, rfl⟩ | ⟨-, -, -, rfl⟩ |
    ⟨b, hi, -, -, rfl⟩ | ⟨-, -, rfl⟩
  · rw [same]
    exact ⟨fun _ => rfl, fun _ => rfl, fun _ _ => rfl⟩
  · exact ⟨fun other => absurd hi (other u c p d), fun _ => rfl, fun _ _ => rfl⟩
  · exact ⟨fun _ => rfl, fun _ => rfl, fun _ _ => rfl⟩
  · exact ⟨fun _ => rfl, fun _ => rfl, fun _ _ => rfl⟩
  · refine ⟨fun _ => rfl, fun other => absurd hi (other b), fun k elsewhere => ?_⟩
    rw [rxbStep_rxf_toList, List.getElem?_set_ne elsewhere.symm]
  · exact ⟨fun _ => rfl, fun _ => rfl, fun _ _ => rfl⟩

/-- Settles O40: the other operations that write registers are enabled in LOADED, TX or RX alone. -/
theorem onlyBuildLeavesDone : Obligations.OnlyBuildLeavesDone := by
  intro i s t block done completes changed
  rcases exec_afu_cases block completes with same | ⟨u, c, p, d, hi, -, -, rfl⟩ | ⟨-, loaded, -⟩ |
    ⟨-, sending, -, -⟩ | ⟨b, -, collecting, -, -⟩ | ⟨-, collecting, -⟩
  · exact absurd same changed
  · exact ⟨⟨u, c, p, d, hi⟩, rfl, rfl, rfl⟩
  · exact nomatch done.symm.trans loaded
  · exact nomatch done.symm.trans sending
  · exact nomatch done.symm.trans collecting
  · exact nomatch done.symm.trans collecting

end Sys2Proof.Machine
end

section
/-! PROOF. A host inside a verb finds the block where the verb left it, after every step (spec/43_protocol_verbs.md section 1;
log 4, 14, 27). -/

namespace Sys2Proof.Machine

/-- The invariant reads the registers and the host's place in its verb. -/
theorem State.HostInv.of_eq {s t : State} (h : s.HostInv) (hafu : t.afu = s.afu) (hcall : t.host.call = s.host.call) :
    t.HostInv := by
  intro c hc
  rw [hafu]
  exact h c (hcall ▸ hc)

theorem hostInv_of_call_eq_none {s : State} (h : s.host.call = none) : s.HostInv :=
  fun _ hc => nomatch h.symm.trans hc

theorem hostInv_goOn {c : CallState} {s : State} (h : c.Inv s.afu) : (goOn c s).HostInv := by
  rintro _ ⟨⟩
  exact h

/-- While the block sends or collects a verb has built its request or waits, and either place survives the exchange going on. -/
theorem CallState.Inv.of_busy {c : CallState} {a b : Afu} (h : c.Inv a) (busy : a.ph = .tx ∨ a.ph = .rx)
    (under : b.ph = .tx ∨ b.ph = .rx ∨ b.ph = .done) : c.Inv b := by
  cases c with
  | built k =>
    show b.ph ≠ .idle
    rcases under with hb | hb | hb <;> rw [hb] <;> simp
  | waiting k => exact under
  | decoding k bytes =>
    obtain ⟨done, -⟩ := h
    rw [done] at busy
    simp at busy

/-- A host inside a verb has its turn, unless the block sends or collects. -/
theorem busy_of_hostTurn_eq_none {s : State} {c : CallState} (h : s.HostInv) (hc : s.host.call = some c)
    (noTurn : hostTurn s = none) : s.afu.ph = .tx ∨ s.afu.ph = .rx := by
  by_contra free
  rw [not_or] at free
  have hinv := h c hc
  have due : c.due s.afu = true := by
    cases c with
    | built k => rfl
    | waiting k => exact beq_iff_eq.2 ((hinv.resolve_left free.1).resolve_left free.2)
    | decoding k bytes =>
      obtain ⟨done, ok, -⟩ := hinv
      exact (readable_iff _).2 ⟨done, ok⟩
  rw [hostTurn_due s c free.1 free.2 hc due] at noTurn
  cases noTurn

theorem txbStep_ph {s : State} (h : s.afu.ph = .tx) : (txbStep s).afu.ph = .tx ∨ (txbStep s).afu.ph = .rx := by
  rw [show (txbStep s).afu = s.afu.sent from rfl, Afu.sent_ph, h]
  split
  · exact .inr rfl
  · exact .inl rfl

/-- An exchange under way goes on, or ends in DONE: no other phase follows TX or RX by an operation of the block (R32). -/
theorem exec_ph_of_busy {i : Instr} {s t : State} (block : isVerb i = false) (completes : exec i s = .next t)
    (busy : s.afu.ph = .tx ∨ s.afu.ph = .rx) : t.afu.ph = .tx ∨ t.afu.ph = .rx ∨ t.afu.ph = .done := by
  rcases exec_afu_cases block completes with same | ⟨u, c, p, d, -, htx, hrx, -⟩ | ⟨-, -, rfl⟩ | ⟨-, htx, -, rfl⟩ |
    ⟨b, -, hrx, -, rfl⟩ | ⟨-, -, rfl⟩
  · rw [same]
    exact busy.imp_right .inl
  · exact absurd busy (not_or.2 ⟨htx, hrx⟩)
  · exact .inl rfl
  · exact (txbStep_ph htx).imp_right .inl
  · exact .inr (.inl hrx)
  · exact .inr (.inr rfl)

theorem ownMove_ph {s t : State} (h : ownMove s = some t) :
    (s.afu.ph = .tx ∨ s.afu.ph = .rx) ∧ (t.afu.ph = .tx ∨ t.afu.ph = .rx ∨ t.afu.ph = .done) := by
  rcases ownMove_cases h with ⟨htx, -, rfl⟩ | ⟨hrx, coming, ⟨b, rfl⟩ | rfl⟩
  · exact ⟨.inl htx, (txbStep_ph htx).imp_right .inl⟩
  · exact ⟨.inr hrx, .inr (.inl hrx)⟩
  · exact ⟨.inr hrx, .inr (.inr rfl)⟩

/-- A verb that begins has built its request, or finds an exchange under way (log 25), or has raised. -/
theorem beginVerb_hostInv (v : VerbCall) (s : State) : (beginVerb v s).HostInv := by
  rcases beginVerb_cases v (rfl : s.host = s.host) with ⟨k, cmd, par, d, e, -⟩ | ⟨err, e, -⟩ <;> rw [e]
  · apply hostInv_goOn
    show (buildStep s.host.cfg.unit cmd par d s).afu.ph ≠ .idle
    rcases buildStep_cases s.host.cfg.unit cmd par d s with ⟨busy, e⟩ | ⟨-, -, e⟩ <;> rw [e]
    · rcases busy with h | h <;> simp [h]
    · simp
  · exact hostInv_of_call_eq_none rfl

/-- After START a verb waits for the exchange it opened, or for the one under way (log 25). -/
theorem startStep_ph {s : State} (h : s.afu.ph ≠ .idle) :
    (startStep s).afu.ph = .tx ∨ (startStep s).afu.ph = .rx ∨ (startStep s).afu.ph = .done := by
  rcases startStep_cases s with ⟨-, e⟩ | ⟨other, e⟩ <;> rw [e]
  · exact .inl rfl
  · cases hph : s.afu.ph <;> simp_all

/-- A look goes on waiting, or to the decode of a response that has been validated. -/
theorem look_hostInv {k : Reading} {s : State} (h : s.afu.ph = .tx ∨ s.afu.ph = .rx ∨ s.afu.ph = .done) :
    (look k s).HostInv := by
  rcases look_cases k s with ⟨-, e⟩ | ⟨-, -, -, e⟩ | ⟨done, ok, hk, e⟩ | ⟨-, -, e⟩ | ⟨-, -, e⟩ | ⟨-, -, e⟩ <;>
    rw [e]
  · exact hostInv_goOn h
  · exact hostInv_of_call_eq_none rfl
  · exact hostInv_goOn ⟨done, ok, hk, rfl, by simp, by simp⟩
  all_goals exact hostInv_of_call_eq_none rfl

/-- GETB's byte on the low byte of `out` (R124). -/
theorem outByte_getbStep {s : State} (h : s.afu.readable = true) (i : BitVec 3) :
    outByte (getbStep i s) = s.afu.rxf[i.toNat]'i.isLt := by
  rw [getbStep, readStep_of_readable h, outByte, answer_ports, BitVec.setWidth_setWidth_of_le _ (by decide), BitVec.setWidth_eq]

/-- A read of the decode adds the response's next byte to those read so far, or is the verb's last. -/
theorem readReply_hostInv {k : Reading} {bytes : List Byte} {s : State} (h : (CallState.decoding k bytes).Inv s.afu) :
    (readReply k bytes s).HostInv := by
  obtain ⟨done, ok, -, own, -, -⟩ := h
  have readable := (readable_iff s.afu).2 ⟨done, ok⟩
  cases k with
  | data | signature | nothing => exact hostInv_of_call_eq_none rfl
  | flags =>
    match bytes with
    | [] =>
      refine hostInv_goOn ?_
      rw [outByte_getbStep readable, show (getbStep 4 s).afu = s.afu from readStep_afu _ s]
      exact ⟨done, ok, by simp, by simp [memRead, frame_toList], by simp, by simp⟩
    | [b4] =>
      have first : b4 = s.afu.rxf[4] := by simpa [memRead, frame_toList] using own
      refine hostInv_goOn ?_
      rw [outByte_getbStep readable, show (getbStep 5 s).afu = s.afu from readStep_afu _ s, first]
      exact ⟨done, ok, by simp, by simp [memRead, frame_toList], by simp, by simp⟩
    | _ :: _ :: _ => exact hostInv_of_call_eq_none rfl

theorem hostOp_hostInv {c : CallState} {s : State} (h : c.Inv s.afu) : (hostOp c s).HostInv := by
  cases c with
  | built k => exact hostInv_goOn (startStep_ph h)
  | waiting k => exact look_hostInv h
  | decoding k bytes =>
    obtain ⟨done, ok, -⟩ := id h
    have reads : hostOp (.decoding k bytes) s = readReply k bytes s := if_pos ((readable_iff _).2 ⟨done, ok⟩)
    rw [reads]
    exact readReply_hostInv h

theorem hostTurn_hostInv {s t : State} (h : s.HostInv) (turn : hostTurn s = some t) : t.HostInv := by
  obtain ⟨-, -, ⟨c, hc, -, rfl⟩ | ⟨v, rest, -, -, rfl⟩⟩ := hostTurn_cases turn
  · exact hostOp_hostInv (h c hc)
  · exact beginVerb_hostInv v _

/-- An instruction that is taken where the host has no turn finds an exchange under way if a verb waits. -/
theorem exec_hostInv {i : Instr} {s t : State} (h : s.HostInv) (noTurn : hostTurn s = none) (completes : exec i s = .next t) :
    t.HostInv := by
  cases hv : isVerb i with
  | false =>
    intro c hc
    rw [(exec_host_feed hv completes).1] at hc
    have busy := busy_of_hostTurn_eq_none h hc noTurn
    exact (h c hc).of_busy busy (exec_ph_of_busy hv completes busy)
  | true =>
    obtain ⟨v, rfl⟩ := (isVerb_iff i).1 hv
    rw [exec_instr] at completes
    rcases call_cases v s with ⟨-, e⟩ | ⟨-, e⟩ <;> rw [e] at completes <;> cases completes
    · exact beginVerb_hostInv v s
    · exact h.of_eq rfl rfl

theorem ownStep_hostInv {s : State} (h : s.HostInv) : (ownStep s).HostInv := by
  unfold ownStep
  split
  · rename_i moved
    intro c hc
    rw [ownMove_host moved] at hc
    obtain ⟨busy, under⟩ := ownMove_ph moved
    exact (h c hc).of_busy busy under
  split
  · exact hostOp_hostInv (h _ ‹_›)
  · exact h.of_eq rfl rfl

/-- Settles O53: by inversion of the step, each kind of it leaves the verb a block it knows. -/
theorem waitingVerbIsNeverStranded : Obligations.WaitingVerbIsNeverStranded := by
  intro s t h completes
  rcases step_eq_next completes with turn | ⟨noTurn, i, rest, completes⟩ | ⟨b, rest, rfl⟩ | ⟨rest, rfl⟩ | ⟨-, rfl⟩
  · exact hostTurn_hostInv h turn
  · have taken : State.HostInv { s with feed := rest } := h.of_eq rfl rfl
    exact exec_hostInv taken (hostTurn_feed noTurn rest) completes
  · exact h.of_eq rfl rfl
  · exact hostInv_of_call_eq_none rfl
  · exact ownStep_hostInv h

end Sys2Proof.Machine
end

section
/-! PROOF. The machine left alone: a transmission ends in as many steps as bytes remain, and a collection that the channel never
ends goes on for ever (spec/41_serializer.md section 2, spec/70_reset_and_hazards.md section 3). -/

namespace Sys2Proof.Machine

/-- Settles O12: `steps_transmit` with no step left over. -/
theorem transmissionEndsWhenLeftAlone : Obligations.TransmissionEndsWhenLeftAlone := by
  intro s htx hlt quiet
  have run := steps_transmit (7 - s.afu.txi.toNat) 0 s htx quiet (by omega)
  rw [show 7 - s.afu.txi.toNat + 1 + 0 = 8 - s.afu.txi.toNat by omega] at run
  exact ⟨transmitted s, run, rfl, rfl, rfl, quiet⟩

/-- The block collects, fewer than eight bytes are there, and nothing is held, planned or coming (R202). -/
structure State.Stuck (s : State) : Prop where
  rx     : s.afu.ph = .rx
  below  : s.afu.rxn.toNat < 8
  feed   : s.feed = []
  held   : s.chan.input = []
  coming : s.chan.coming = []

/-- In RX the host's next operation leaves block and channel alone: START is refused there, and the others write nothing. -/
theorem hostOp_same_of_rx (c : CallState) {s : State} (h : s.afu.ph = .rx) :
    (hostOp c s).afu = s.afu ∧ (hostOp c s).chan = s.chan := by
  cases c with
  | built k =>
    rcases startStep_cases s with ⟨loaded, -⟩ | ⟨-, e⟩
    · exact nomatch h.symm.trans loaded
    · show (startStep s).afu = s.afu ∧ (startStep s).chan = s.chan
      rw [e]
      exact ⟨rfl, rfl⟩
  | waiting k => exact look_same k s
  | decoding k bytes =>
    show (if s.afu.readable then readReply k bytes s else idle s).afu = s.afu ∧
      (if s.afu.readable then readReply k bytes s else idle s).chan = s.chan
    split
    · exact readReply_same k bytes s
    · exact ⟨rfl, rfl⟩

/-- A waiting verb's look in RX leaves the verb waiting. -/
theorem hostOp_host_of_rx {k : Reading} {s : State} (h : s.afu.ph = .rx) :
    (hostOp (.waiting k) s).host = { s.host with call := some (.waiting k), result := none } := by
  rcases look_cases k s with ⟨-, e⟩ | ⟨done, -⟩ | ⟨done, -⟩ | ⟨done, -⟩ | ⟨done, -⟩ | ⟨done, -⟩
  · exact congrArg State.host e
  all_goals exact nomatch h.symm.trans done

/-- A step of a stuck state is a look of the waiting host, or nothing. -/
theorem State.Stuck.step {s : State} (h : s.Stuck) :
    ∃ t, step s = .next t ∧ t.afu = s.afu ∧ t.chan = s.chan ∧ t.feed = s.feed ∧
      (∀ k, s.host.call = some (.waiting k) → s.host.result = none → t.host = s.host) := by
  have still : ownMove s = none := by rw [ownMove_rx s h.rx h.below, channelMove, h.held, h.coming]
  refine ⟨ownStep s, step_busy s (.inr h.rx) h.feed, ?_⟩
  rw [ownStep, still]
  cases hc : s.host.call with
  | none => exact ⟨rfl, rfl, rfl, fun _ inside => nomatch inside⟩
  | some c =>
    obtain ⟨hafu, hchan⟩ := hostOp_same_of_rx c h.rx
    refine ⟨hafu, hchan, (hostOp_frame c s).1, fun k inside noResult => ?_⟩
    cases inside
    exact (hostOp_host_of_rx h.rx).trans (by rw [← hc, ← noResult])

/-- However many steps follow, a stuck state stays as it is, and so does a host that waits in it. -/
theorem State.Stuck.steps {s : State} (h : s.Stuck) (n : Nat) :
    ∃ t, steps n s = .next t ∧ t.afu = s.afu ∧ t.chan = s.chan ∧ t.feed = s.feed ∧
      (∀ k, s.host.call = some (.waiting k) → s.host.result = none → t.host = s.host) := by
  induction n generalizing s with
  | zero => exact ⟨s, rfl, rfl, rfl, rfl, fun _ _ _ => rfl⟩
  | succ n ih =>
    obtain ⟨t, completes, hafu, hchan, hfeed, hhost⟩ := h.step
    have stuck : t.Stuck :=
      ⟨hafu ▸ h.rx, hafu ▸ h.below, hfeed.trans h.feed, hchan ▸ h.held, hchan ▸ h.coming⟩
    obtain ⟨u, run, uafu, uchan, ufeed, uhost⟩ := ih stuck
    refine ⟨u, (steps_succ n completes).trans run, uafu.trans hafu, uchan.trans hchan, ufeed.trans hfeed,
      fun k inside noResult => ?_⟩
    have waits := hhost k inside noResult
    exact (uhost k (waits ▸ inside) (waits ▸ noResult)).trans waits

/-- Settles O34: the state is stuck; BUILD and START are refused in RX. -/
theorem exchangeMayNeverEnd : Obligations.ExchangeMayNeverEnd := by
  intro s hrx hlt quiet held coming
  refine ⟨fun n => ?_, fun u c p d op hop => ?_⟩
  · obtain ⟨t, run, hafu, hchan, -, -⟩ := State.Stuck.steps ⟨hrx, hlt, quiet, held, coming⟩ n
    exact ⟨t, run, hafu, hchan⟩
  · simp only [List.mem_cons, List.not_mem_nil, or_false] at hop
    rcases hop with rfl | rfl
    · exact ⟨_, exec_build_of_busy (.inr hrx) u c p d, rfl, rfl⟩
    · exact ⟨_, exec_start_of_not_loaded (by simp [hrx]), rfl, rfl⟩

end Sys2Proof.Machine
end

section
/-! PROOF. The verbs: each begins with the BUILD of its request, and the machine left alone takes it to its result, or waits where
the channel does not end the exchange (spec/43_protocol_verbs.md sections 1 and 2; log 4, 5). -/

namespace Sys2Proof.Machine

/-- The state a verb's BUILD leaves when it completes: the request loaded, START to come (R96, R135). -/
def requested (k : Reading) (cmd par : Byte) (d : Half) (s : State) : State :=
  goOn (.built k) { s with afu := s.afu.load (build s.host.cfg.unit cmd par d), ports := Ports.idle }

/-- Outside TX and RX the exchange of a verb begins with the request loaded (R96, R135). -/
theorem xchg_of_not_busy {s : State} (htx : s.afu.ph ≠ .tx) (hrx : s.afu.ph ≠ .rx) (k : Reading) (cmd par : Byte) (d : Half) :
    xchg k cmd par d s = requested k cmd par d s := by
  rcases buildStep_cases s.host.cfg.unit cmd par d s with ⟨busy, -⟩ | ⟨-, -, e⟩
  · exact absurd busy (not_or.2 ⟨htx, hrx⟩)
  · exact congrArg (goOn (.built k)) e

/-- A verb that begins an exchange goes through it, whatever the response. -/
theorem verbExchanges_of_xchg {v : VerbCall} {k : Reading} {cmd par : Byte} {d : Half} {s : State}
    (begins : beginVerb v s = xchg k cmd par d s) : VerbExchanges v.instr k (build s.host.cfg.unit cmd par d) s := by
  intro a rest free htx hrx quiet plan
  rw [exec_instr_of_call_eq_none free, begins, xchg_of_not_busy htx hrx]
  obtain ⟨n, hn, t, run, exchange, hhost⟩ := steps_exchange k (requested k cmd par d s) a rest rfl rfl quiet plan
  refine ⟨_, rfl, rfl, rfl, rfl, quiet, n, hn, t, run, ?_, hhost⟩
  exact { exchange with cfg := exchange.cfg, feed := exchange.feed }

theorem withDescriptor_of_lookup_eq_some {table : Table} {name : String} {d : Descriptor} (h : lookup table name = some d)
    (f : Descriptor → State → State) (s : State) : withDescriptor table name f s = f d s := by
  rw [withDescriptor, h]

theorem beginVerb_getParam {s : State} {name : String} {d : Descriptor} (h : lookup s.host.cfg.params name = some d) :
    beginVerb (.getParam name) s = xchg .data s.host.cfg.cmdGetParam d.code 0 s :=
  withDescriptor_of_lookup_eq_some h _ s

theorem beginVerb_result {s : State} {name : String} {d : Descriptor} (h : lookup s.host.cfg.results name = some d) :
    beginVerb (.result name) s = xchg .data Config.cmdGetResult d.code 0 s :=
  withDescriptor_of_lookup_eq_some h _ s

theorem beginVerb_setParam_of_inRange {s : State} {name : String} {value : Int} {d : Descriptor}
    (h : lookup s.host.cfg.params name = some d) (range : inRange d value = true) :
    beginVerb (.setParam name value) s = xchg .nothing s.host.cfg.cmdSetParam d.code (mask16 value) s := by
  rw [beginVerb, beginSetParam, withDescriptor_of_lookup_eq_some h, if_pos range]

theorem beginVerb_setParam_of_not_inRange {s : State} {name : String} {value : Int} {d : Descriptor}
    (h : lookup s.host.cfg.params name = some d) (range : ¬ inRange d value = true) :
    beginVerb (.setParam name value) s = raise (.outOfRange name value d.min d.max) (idle s) := by
  rw [beginVerb, beginSetParam, withDescriptor_of_lookup_eq_some h, if_neg range]

/-- Settles O43: with the lookup done, both verbs begin an exchange. -/
theorem getParamAndResultReadAValue : Obligations.GetParamAndResultReadAValue :=
  fun _ _ _ => ⟨fun h => verbExchanges_of_xchg (beginVerb_getParam h), fun h => verbExchanges_of_xchg (beginVerb_result h)⟩

/-- Settles O44: a value in range is the data of the exchange, unchanged by the mask; another raises before any operation. -/
theorem setParamChecksTheRangeFirst : Obligations.SetParamChecksTheRangeFirst := by
  intro s name value d h
  refine ⟨fun lower upper => ?_, fun outside free => ?_⟩
  · have := d.max.isLt
    have := mask16_toNat value
    refine ⟨mask16 value, by omega, ?_⟩
    exact verbExchanges_of_xchg (beginVerb_setParam_of_inRange h ((inRange_iff d value).2 ⟨lower, upper⟩))
  · have range : ¬ inRange d value = true := by
      rw [inRange_iff]
      omega
    exact ⟨_, (exec_instr_of_call_eq_none free (.setParam name value)).trans
      (congrArg _ (beginVerb_setParam_of_not_inRange h range)), rfl, rfl, rfl, rfl, rfl, rfl, rfl, rfl⟩

/-- Settles O45: the masked speed is the data of the exchange. -/
theorem moveSendsTheMaskedSpeed : Obligations.MoveSendsTheMaskedSpeed :=
  fun _ speed => ⟨mask16 speed, mask16_toNat speed, verbExchanges_of_xchg (v := .move speed) rfl⟩

/-- Settles O46: each of the three begins an exchange that reads nothing. -/
theorem actionVerbsExchange : Obligations.ActionVerbsExchange :=
  fun _ => ⟨verbExchanges_of_xchg (v := .reset) rfl, verbExchanges_of_xchg (v := .stop) rfl,
    verbExchanges_of_xchg (v := .enableTracking) rfl⟩

/-- Settles O47: each of the two begins an exchange with its own reading. -/
theorem stateAndEchoDecode : Obligations.StateAndEchoDecode :=
  fun _ => ⟨verbExchanges_of_xchg (v := .state) rfl, verbExchanges_of_xchg (v := .echo) rfl⟩

/-- A verb that begins an exchange which the channel does not end sends its request, collects what comes, and is stuck there. -/
theorem verbWaits_of_xchg {v : VerbCall} {k : Reading} {cmd par : Byte} {d : Half} {s : State}
    (begins : beginVerb v s = xchg k cmd par d s) : VerbWaits v.instr k (build s.host.cfg.unit cmd par d) s := by
  intro a free htx hrx quiet short plan
  rw [exec_instr_of_call_eq_none free, begins, xchg_of_not_busy htx hrx]
  obtain ⟨r, sends, rph, rtxf, -, rrxn, rchan, rfeed, rhost⟩ := steps_send k (requested k cmd par d s) rfl rfl quiet
  have room : r.afu.rxn.toNat = 0 := congrArg BitVec.toNat rrxn
  obtain ⟨u, collects, uph, urxn, umem, utxf, -, uchan, uhost, ufeed⟩ := steps_receive a r [] rph rfeed (by omega)
    (by rw [rchan]) (by rw [rchan, List.append_nil]; exact plan)
  rw [room, Nat.zero_add] at urxn
  rw [room, urxn] at umem
  have stuck : u.Stuck := ⟨uph, urxn ▸ short, ufeed, by rw [uchan, rchan], by rw [uchan]⟩
  have waits := uhost.trans rhost
  refine ⟨_, rfl, 9 + a.length, fun m => ?_⟩
  obtain ⟨t, run, tafu, tchan, tfeed, thost⟩ := stuck.steps m
  refine ⟨t, ?_, tafu ▸ uph, tafu ▸ urxn, tafu ▸ umem, ?_, ?_, ?_, tfeed.trans ufeed⟩
  · rw [Nat.add_assoc, sends, collects, run]
  · rw [tafu, utxf, rtxf]
    rfl
  · rw [tchan, uchan, rchan]
    rfl
  · rw [thost k (by rw [waits]) (by rw [waits]), waits]
    rfl

/-- Settles O50: each verb that gets as far as its exchange begins it, so `verbWaits_of_xchg` applies. -/
theorem verbWaitsForTheChannel : Obligations.VerbWaitsForTheChannel := by
  intro s name value d
  refine ⟨fun h => ⟨verbWaits_of_xchg (beginVerb_getParam h), fun lower upper => ?_⟩,
    fun h => verbWaits_of_xchg (beginVerb_result h), verbWaits_of_xchg (v := .move value) rfl,
    verbWaits_of_xchg (v := .state) rfl, verbWaits_of_xchg (v := .reset) rfl, verbWaits_of_xchg (v := .echo) rfl,
    verbWaits_of_xchg (v := .stop) rfl, verbWaits_of_xchg (v := .enableTracking) rfl⟩
  exact verbWaits_of_xchg (beginVerb_setParam_of_inRange h ((inRange_iff d value).2 ⟨lower, upper⟩))

end Sys2Proof.Machine
end

section
/-! PROOF. The verbs and their turns: a call during an exchange or inside an earlier verb, the answer in DONE, and the single
operations a verb is made of (spec/20_memory.md sections 4 and 6, spec/43_protocol_verbs.md section 1; log 10, 25, 27). -/

namespace Sys2Proof.Machine

/-- A call inside an earlier verb is put behind those that wait (log 10). -/
theorem exec_instr_of_call_ne_none {s : State} (inside : s.host.call ≠ none) (v : VerbCall) :
    exec v.instr s = .next (enqueue v s) := by
  rw [exec_instr, call, if_neg inside]

/-- Settles O49: a verb begins with its BUILD, which is refused in TX and RX, or raises. -/
theorem verbDuringAnExchangeKeepsTheRequest : Obligations.VerbDuringAnExchangeKeepsTheRequest := by
  intro s i verb free busy
  obtain ⟨v, rfl⟩ := (isVerb_iff i).1 verb
  rw [exec_instr_of_call_eq_none free]
  rcases beginVerb_cases v (rfl : s.host = s.host) with ⟨k, cmd, par, d, e, -⟩ | ⟨err, e, -⟩ <;> rw [e]
  · have refused : buildStep s.host.cfg.unit cmd par d s = refuse s :=
      Host.Outcome.next.inj (exec_build_of_busy busy s.host.cfg.unit cmd par d)
    rw [xchg, refused]
    exact ⟨_, rfl, rfl, rfl, rfl, rfl, rfl⟩
  · exact ⟨_, rfl, rfl, rfl, rfl, rfl, rfl⟩

/-- Settles O51: the invariant makes the outcome the validation of the bytes collected, so `steps_answer` applies. -/
theorem waitingVerbIsAnsweredWhenDone : Obligations.WaitingVerbIsAnsweredWhenDone := by
  intro s k inv waits done noReset
  have count : (memRead s.afu.rxf 0 s.afu.rxn.toNat).length = s.afu.rxn.toNat := memRead_length _ _ inv.afu.counters.2
  obtain ⟨n, hn, t, run, hafu, hchan, hfeed, hhost⟩ :=
    steps_answer k s _ waits done noReset (by rw [count]) (inv.afu.validated done)
  exact ⟨n, hn, t, run 0, hafu, hchan, hfeed, hhost⟩

/-- Settles O52: `enqueue` inside a verb; the turn of a free host is the oldest waiting call. -/
theorem callsWaitTheirTurn : Obligations.CallsWaitTheirTurn := by
  refine ⟨fun s i verb inside => ?_, fun s v rest free waiting htx hrx noReset => ?_⟩
  · obtain ⟨v, rfl⟩ := (isVerb_iff i).1 verb
    exact ⟨v, rfl, _, exec_instr_of_call_ne_none inside v, rfl, rfl, rfl, rfl, rfl, rfl⟩
  · rw [exec_instr_of_call_eq_none (s := { s with host := { s.host with pending := rest } }) free]
    exact step_turn _ _ (hostTurn_begin s v rest htx hrx free waiting) noReset

/-- A host whose verb finds the block where it left it, and can go on, issues one operation of the block. -/
theorem hostOp_single {c : CallState} {s : State} (h : c.Inv s.afu) :
    ∃ j : BitVec 3, ∃ op ∈ [Instr.start, .getstat, .getdata, .getb j, .sigcmp], ∃ v, exec op s = .next v ∧
      HostMoved v (hostOp c s) := by
  rcases hostOp_cases c s with single | ⟨k, bytes, rfl, nothing, -⟩
  · exact single
  · obtain ⟨done, ok, hk, -⟩ := h
    rcases nothing with shut | hk'
    · rw [(readable_iff _).2 ⟨done, ok⟩] at shut
      cases shut
    · exact absurd hk' hk

/-- Settles O54: a call is its BUILD or raises; a turn inside a verb is `hostOp_single`; the reset input goes before the turn. -/
theorem verbsAreMadeOfSingleOperations : Obligations.VerbsAreMadeOfSingleOperations := by
  refine ⟨fun s i verb free => ?_, fun s t c inv inside turn => ?_, fun s rest _ hf => ?_⟩
  · obtain ⟨v, rfl⟩ := (isVerb_iff i).1 verb
    refine ⟨_, exec_instr_of_call_eq_none free v, ?_⟩
    rcases beginVerb_cases v (rfl : s.host = s.host) with ⟨k, cmd, par, d, e, -⟩ | ⟨err, e, -⟩ <;> rw [e]
    · exact .inr ⟨nofun, s.host.cfg.unit, cmd, par, d, _, rfl, rfl, rfl, rfl⟩
    · exact .inl ⟨rfl, rfl, rfl, rfl⟩
  · obtain ⟨-, -, ⟨c', hc, -, rfl⟩ | ⟨v, rest, free, -⟩⟩ := hostTurn_cases turn
    · obtain ⟨j, op, hop, v, completes, moved⟩ := hostOp_single (inv c' hc)
      obtain ⟨hafu, hchan, hports, hfeed, -, -⟩ := moved.same
      exact ⟨j, v, op, hop, completes, hafu, hchan, hports, hfeed⟩
    · exact nomatch inside.symm.trans free
  · exact ⟨_, step_reset hf, rfl, rfl, rfl, rfl⟩

end Sys2Proof.Machine
end
